-- ==== Sys2Proof/Word.lean ====
section
/-! DEFINITION. The word types of PTE (00_scope.md R6, R8, R11). -/

namespace Sys2Proof

/-- A 64-bit unsigned value, `u64` (R6): every operand, result and working value. -/
abbrev Word := BitVec 64

/-- One byte of TMEM (20_memory.md R51, R53). -/
abbrev Byte := BitVec 8

/-- A 128-bit vector of 16 byte lanes (R8). -/
abbrev Lane := BitVec 128

end Sys2Proof
end

