-- ==== Sys2Proof/Syntax.lean ====
section
/-! DEFINITION. The commands of PTE: one constructor per row of spec/opcode_table.json (30_encoding.md R74).
A command word carries no operand (R70, R71), so no constructor has a field. -/

namespace Sys2Proof

/-- The 29 commands of R74. -/
inductive Instr where
  -- control and table builder, class 0x0
  | nop | build | tblrd
  -- table-driven PDEP, class 0x1 with OP = 0
  | pdepT16 | pdepT16Pt | pdepT16Inv | pdepT16InvPt
  | pdepT256 | pdepT256Pt | pdepT256Inv | pdepT256InvPt
  -- table-driven PEXT, class 0x1 with OP = 1
  | pextT16 | pextT16Pt | pextT16Inv | pextT16InvPt
  | pextT256 | pextT256Pt | pextT256Inv | pextT256InvPt
  -- vector shuffle, class 0x2
  | pdepVs | pextVs
  -- closed form, class 0x3
  | pextCf
  -- Oracle, class 0x4
  | pdepRef | pextRef | popcntRef
  -- select1, class 0x5
  | sel1Naive | sel1Clear | sel1Bsearch | sel1Pdep
  deriving DecidableEq, Repr

end Sys2Proof
end

