-- ==== Sys2Proof/Decode.lean ====
section
/-! DEFINITION. Decoding a command word (30_encoding.md R70, R74 to R77) and encoding a command. Decoding is total:
what is no command is rejected by name. -/

namespace Sys2Proof

/-- Why bits are no command (R75). At a completion either reason is ERR = ILLEGAL_OP, a next state. -/
inductive Reject where
  /-- RSV ≠ 0: illegal whatever the OPCODE (R70, R75). -/
  | rsvNonzero
  /-- One of the 227 unassigned OPCODE values (R75). -/
  | unassignedOpcode (op : BitVec 8)
  /-- Not the 8 bytes of one command word (R77: every command has this one length). -/
  | wrongLength (bytes : Nat)
  deriving DecidableEq, Repr

/-- Rows of R74, class 0x0: control and table builder. -/
def controlRows : List (BitVec 8 × Instr) :=
  [(0x00, .nop), (0x01, .build), (0x02, .tblrd)]

/-- Rows of R74, class 0x1 with OP = 0: table-driven PDEP. -/
def tablePdepRows : List (BitVec 8 × Instr) :=
  [(0x10, .pdepT16), (0x11, .pdepT16Pt), (0x12, .pdepT16Inv), (0x13, .pdepT16InvPt),
   (0x14, .pdepT256), (0x15, .pdepT256Pt), (0x16, .pdepT256Inv), (0x17, .pdepT256InvPt)]

/-- Rows of R74, class 0x1 with OP = 1: table-driven PEXT. -/
def tablePextRows : List (BitVec 8 × Instr) :=
  [(0x18, .pextT16), (0x19, .pextT16Pt), (0x1A, .pextT16Inv), (0x1B, .pextT16InvPt),
   (0x1C, .pextT256), (0x1D, .pextT256Pt), (0x1E, .pextT256Inv), (0x1F, .pextT256InvPt)]

/-- Rows of R74, classes 0x2 to 0x5: vector shuffle, closed form, Oracle, select1. -/
def engineRows : List (BitVec 8 × Instr) :=
  [(0x20, .pdepVs), (0x21, .pextVs), (0x30, .pextCf),
   (0x40, .pdepRef), (0x41, .pextRef), (0x42, .popcntRef),
   (0x50, .sel1Naive), (0x51, .sel1Clear), (0x52, .sel1Bsearch), (0x53, .sel1Pdep)]

/-- The complete command list of R74. -/
def opcodeRows : List (BitVec 8 × Instr) := controlRows ++ tablePdepRows ++ tablePextRows ++ engineRows

/-- `CMD[7:0]` = OPCODE (R70). -/
def wordOpcode (w : Word) : BitVec 8 := w.setWidth 8

/-- `CMD[63:8] ≠ 0`, a nonzero RSV field (R70, R31). -/
def wordRsvNonzero (w : Word) : Bool := w.extractLsb' 8 56 != 0

/-- `decode(LOP, LRSV)` (R76). -/
def decodeLatched (lop : BitVec 8) (lrsv : Bool) : Except Reject Instr :=
  if lrsv then .error .rsvNonzero
  else match opcodeRows.lookup lop with
    | some i => .ok i
    | none => .error (.unassignedOpcode lop)

/-- Decoding the 64-bit value written to CMD (R70, R76). -/
def decodeWord (w : Word) : Except Reject Instr := decodeLatched (wordOpcode w) (wordRsvNonzero w)

/-- The value of a sequence of bytes whose first byte is the least significant (R57). -/
def wordOfBytes : List Byte → Nat
  | [] => 0
  | b :: bs => b.toNat + 256 * wordOfBytes bs

/-- Decoding the 8 bytes of a CMD write as they stand on the bus, byte 0 first (R57). -/
def decodeBytes (bs : List Byte) : Except Reject Instr :=
  if bs.length = 8 then decodeWord (BitVec.ofNat 64 (wordOfBytes bs)) else .error (.wrongLength bs.length)

/-- The OPCODE column of R74. -/
def opcode : Instr → BitVec 8
  | .nop => 0x00 | .build => 0x01 | .tblrd => 0x02
  | .pdepT16 => 0x10 | .pdepT16Pt => 0x11 | .pdepT16Inv => 0x12 | .pdepT16InvPt => 0x13
  | .pdepT256 => 0x14 | .pdepT256Pt => 0x15 | .pdepT256Inv => 0x16 | .pdepT256InvPt => 0x17
  | .pextT16 => 0x18 | .pextT16Pt => 0x19 | .pextT16Inv => 0x1A | .pextT16InvPt => 0x1B
  | .pextT256 => 0x1C | .pextT256Pt => 0x1D | .pextT256Inv => 0x1E | .pextT256InvPt => 0x1F
  | .pdepVs => 0x20 | .pextVs => 0x21 | .pextCf => 0x30
  | .pdepRef => 0x40 | .pextRef => 0x41 | .popcntRef => 0x42
  | .sel1Naive => 0x50 | .sel1Clear => 0x51 | .sel1Bsearch => 0x52 | .sel1Pdep => 0x53

/-- The command word `zext_64(OPCODE)` (R74). -/
def encode (i : Instr) : Word := (opcode i).setWidth 64

/-- The `n` bytes of a number, least significant first (R57). -/
def bytesOfNat : Nat → Nat → List Byte
  | 0, _ => []
  | n + 1, w => BitVec.ofNat 8 w :: bytesOfNat n (w / 256)

/-- The 8 bytes of a command word as they stand on the bus (R57). -/
def encodeBytes (i : Instr) : List Byte := bytesOfNat 8 (encode i).toNat

/-- What the decoder reads from a row of spec/opcode_table.json: the bits of `w` below `nbits`, every bit above
them 0, laid out as the 8 bytes of one CMD write. A command has no bit above bit 63 (R77). -/
def decodeTableWord (nbits w : Nat) : Option Instr :=
  match decodeBytes (bytesOfNat 8 (w % 2 ^ nbits)) with
  | .ok i => if w % 2 ^ nbits < 2 ^ 64 then some i else none
  | .error _ => none

end Sys2Proof
end

