-- ==== Sys2Proof/Config.lean ====
section
/-! DEFINITION. What the platform or the implementation fixes and the spec leaves open (00_scope.md R9).
Each is an uninterpreted constant: a claim about the model holds for every value of it. -/

namespace Sys2Proof

/-- `BASE` (R9, R50, U13): the host address at which the 0x40-byte register window starts. -/
opaque Config.base : Word

/-- `BUS_ERROR` (R9, R56, U11): how the host's bus reports a rejected access to the host. -/
opaque Config.busError : Word

/-- How much more than one cycle a command takes, for its opcode and operands. -/
opaque Config.extraLatency : BitVec 8 → Word → Word → Nat

/-- `LAT(op, a, b)` (R9, U12): the cycles from acceptance to completion, finite and at least 1. The model has no
time (R292), so no step reads it. DESIGN CHOICE, safe: log 11. -/
def Config.lat (op : BitVec 8) (a b : Word) : Nat := Config.extraLatency op a b + 1

end Sys2Proof
end

