-- ==== Sys2Proof/Machine/State.lean ====
section
/-! DEFINITION. The state of PTE (10_state.md, 20_memory.md) as plain data, the moves of its surroundings, the reasons
a step can stop, and the state after reset (70_reset_and_hazards.md R270, R271). -/

namespace Sys2Proof.Machine

/-- The error codes of STATUS.ERR (60_exceptions.md R240). Codes 6 to 15 are never written (R26), so there is no
constructor for them. DESIGN CHOICE, exact: log 13. -/
inductive ErrCode where
  | ok | illegalOp | notBuilt | kRange | badIndex | buildInconsistent
  deriving DecidableEq, Repr

/-- A host bus transaction on the register window (30_encoding.md R80, 20_memory.md R56): the offset from BASE and the
width of the access, both in bytes, and the data of a write. -/
inductive HostAccess where
  | read (off width : Nat)
  | write (off width : Nat) (data : Word)
  deriving DecidableEq, Repr

/-- One move of PTE's surroundings (R61, R62, R270): an access of the Host, enough time passing for the Engine to take
its turn, or the platform's reset input. DESIGN CHOICE, safe: log 1. -/
inductive Input where
  | host (access : HostAccess)
  | engine
  | reset
  deriving DecidableEq, Repr

/-- What the host's last accepted access was answered with (R80). The model's own field. DESIGN CHOICE, safe: log 4. -/
inductive Reply where
  | none
  | written
  | data (v : Word)
  deriving DecidableEq, Repr

/-- TMEM (R51) as the list of its written bytes: addresses strictly rising, and an address that is not listed has no
value (R271, U1). DESIGN CHOICE, safe: log 6. -/
abbrev Memory := List Host.Cell

/-- The canonical form of a memory: addresses strictly rising. An unlisted address has no value, so no entry can
repeat one. -/
abbrev Memory.wf (m : Memory) : Prop := m.Pairwise (fun c d => c.1 < d.1)

/-- Why the machine stops. None is raised by a command on a state reachable from reset. -/
inductive Fault where
  /-- Raised by a host access that is not an aligned 8-byte access of the window: "a model treats a rejected access as
  a fault of the host's step" (R56, U11). It carries the platform's BUS_ERROR (R9). Safe: log 7. -/
  | hostAccessRejected (report : Word)
  /-- Raised by an engine's read of a TMEM offset that holds no storage (R54). No engine forms such an offset, so
  no step raises it. Safe: log 23. -/
  | tmemHole (addr : Nat)
  /-- Raised by an engine's read of a TMEM byte no BUILD has written since reset (R271, U1: no step reads such a byte).
  Unreachable from reset, since TV = 0 gives NOT_BUILT. Safe: log 6. -/
  | tmemUnwritten (addr : Nat)
  deriving DecidableEq, Repr

/-- Why a step has no meaning. No arm of `exec` uses it. -/
inductive Refusal where
  /-- Raised by an arm of `exec` whose command has no meaning yet. Safe. -/
  | notModelled (mnemonic : String)
  deriving DecidableEq, Repr

/-- Every piece of state the spec gives PTE, and the model's own `inputs` and `reply`. -/
@[ext]
structure State where
  /-- Register 0, the first operand (R20, R21). -/
  opa : Word
  /-- Register 1, the second operand (R20, R22). -/
  opb : Word
  /-- Register 3, the last result (R20, R24). -/
  result : Word
  /-- STATUS[0] (R25). -/
  busy : Bool
  /-- STATUS[1], TABLES_VALID (R25). -/
  tv : Bool
  /-- STATUS[2], OVERRUN (R25). -/
  ovr : Bool
  /-- STATUS[7:4] (R25, R240). -/
  err : ErrCode
  /-- The latched opcode (R29). -/
  lop : BitVec 8
  /-- Whether the latched command word had a nonzero RSV field (R29). -/
  lrsv : Bool
  /-- The latched first operand (R29). -/
  la : Word
  /-- The latched second operand (R29). -/
  lb : Word
  /-- The table memory (R32, R51). -/
  tmem : Memory
  /-- The moves still to come, the next one first (log 1). -/
  inputs : List Input
  /-- The answer to the last accepted host access (log 4). -/
  reply : Reply
  deriving DecidableEq, Repr

/-- The state after reset (R20, R25, R34, R270, R271). The spec leaves the latches unspecified; the model names 0.
DESIGN CHOICE, unsafe: log 5. No input is pending and no access has been answered. DESIGN CHOICE: log 1, log 4. -/
def State.reset : State where
  opa := 0
  opb := 0
  result := 0
  busy := false
  tv := false
  ovr := false
  err := .ok
  lop := 0
  lrsv := false
  la := 0
  lb := 0
  tmem := []
  inputs := []
  reply := .none

end Sys2Proof.Machine
end

