-- ==== Sys2Proof/Machine/Ops.lean ====
section
/-! DEFINITION. The shared operations: memory, the chunk and table parameters (00_scope.md R7, R17, R18; 20_memory.md
R52 to R54), acceptance of a command (10_state.md R31), its completion and its error completion (60_exceptions.md
R241, R243). -/

namespace Sys2Proof.Machine

/-! Memory as a canonical list of cells. -/

/-- The byte listed at an address; none where nothing is listed. -/
def Memory.read : Memory → Nat → Option Byte
  | [], _ => none
  | (k, v) :: m, a => if a = k then some v else Memory.read m a

/-- Store one byte, keeping the addresses strictly rising. -/
def Memory.write : Memory → Nat → Byte → Memory
  | [], a, v => [(a, v)]
  | (k, w) :: m, a, v =>
    if a < k then (a, v) :: (k, w) :: m
    else if a = k then (a, v) :: m
    else (k, w) :: Memory.write m a v

/-! Parameters of the engines. -/

/-- The chunk width W (R7); WID selects it (R18). -/
inductive ChunkWidth where
  | w16 | w256
  deriving DecidableEq, Repr

/-- kb = log2(W), the chunk length in bits (R7). -/
def ChunkWidth.bits : ChunkWidth → Nat
  | .w16 => 4
  | .w256 => 8

/-- W, the number of values of a chunk (R7). -/
def ChunkWidth.values (w : ChunkWidth) : Nat := 2 ^ w.bits

/-- n = 64 / kb, the number of chunks of a word (R7). -/
def ChunkWidth.chunks (w : ChunkWidth) : Nat := 64 / w.bits

/-- The table orientation; INV selects it (R18). -/
inductive Orientation where
  | forward | inverse
  deriving DecidableEq, Repr

/-- The popcount source; PSRC selects it (R18, R16). -/
inductive PopSource where
  | circuit | table
  deriving DecidableEq, Repr

/-- The tables of TMEM (R17, R53). -/
inductive Table where
  | tp16 | tx16 | tpi16 | txi16 | p16 | lp | lx | p256 | tp256 | tx256 | tpi256 | txi256
  deriving DecidableEq, Repr

/-- The base of a table (R53). -/
def Table.base : Table → Nat
  | .tp16 => 0x00000 | .tx16 => 0x00100 | .tpi16 => 0x00200 | .txi16 => 0x00300
  | .p16 => 0x00400 | .lp => 0x00500 | .lx => 0x00600 | .p256 => 0x00700
  | .tp256 => 0x10000 | .tx256 => 0x20000 | .tpi256 => 0x30000 | .txi256 => 0x40000

/-- The size of a table in bytes (R53). -/
def Table.size : Table → Nat
  | .tp16 | .tx16 | .tpi16 | .txi16 => 256
  | .p16 => 16
  | .lp | .lx | .p256 => 256
  | .tp256 | .tx256 | .tpi256 | .txi256 => 65536

/-- TP_W or TPI_W (R17). -/
def pdepTable : ChunkWidth → Orientation → Table
  | .w16, .forward => .tp16
  | .w16, .inverse => .tpi16
  | .w256, .forward => .tp256
  | .w256, .inverse => .tpi256

/-- TX_W or TXI_W (R17). -/
def pextTable : ChunkWidth → Orientation → Table
  | .w16, .forward => .tx16
  | .w16, .inverse => .txi16
  | .w256, .forward => .tx256
  | .w256, .inverse => .txi256

/-- P_W (R17). -/
def popTable : ChunkWidth → Table
  | .w16 => .p16
  | .w256 => .p256

/-! TMEM accesses. -/

/-- The offsets that hold no storage (R54, R132). -/
def tmemHole (a : Nat) : Bool :=
  decide (0x50000 ≤ a) || (decide (0x00410 ≤ a) && decide (a ≤ 0x004FF))
    || (decide (0x00800 ≤ a) && decide (a ≤ 0x0FFFF))

/-- Read one byte of TMEM. A hole and a byte without a value stop the machine: log 6, log 23. -/
def readByte (m : Memory) (a : Nat) : Except Fault Byte :=
  if tmemHole a then .error (.tmemHole a)
  else match m.read a with
    | some v => .ok v
    | none => .error (.tmemUnwritten a)

/-- The bytes at `a` to `a + n - 1` as a number, byte `a` least significant (R52). -/
def memReadNat (m : Memory) (a : Nat) : Nat → Except Fault Nat
  | 0 => .ok 0
  | n + 1 => do
    let lo ← readByte m a
    let hi ← memReadNat m (a + 1) n
    return lo.toNat + 256 * hi

/-- `MemRead(addr, n)` (R52). -/
def memRead (m : Memory) (a n : Nat) : Except Fault (BitVec (8 * n)) :=
  (memReadNat m a n).map (BitVec.ofNat (8 * n))

/-- `MemWrite(addr, n, v)` (R52): byte i of `v` at offset `addr + i`. Only BUILD executes it (R14). -/
def memWrite (m : Memory) (a n : Nat) (v : BitVec (8 * n)) : Memory :=
  (List.range n).foldl (fun m i => m.write (a + i) (v.extractLsb' (8 * i) 8)) m

/-! Acceptance and completion. -/

/-- Acceptance of the value `v` written to CMD while BUSY = 0 (R31). It changes neither RESULT nor ERR. -/
def acceptCommand (s : State) (v : Word) : State :=
  { s with
    lop := wordOpcode v
    lrsv := wordRsvNonzero v
    la := s.opa
    lb := s.opb
    ovr := false
    tv := if v = 0x0000000000000001 then false else s.tv
    busy := true }

/-- A CMD write while BUSY = 1: the request is dropped; nothing else changes (R31). -/
def dropCommand (s : State) : State := { s with ovr := true }

/-- A host write of `v` to CMD (R31). -/
def requestCommand (s : State) (v : Word) : State :=
  if s.busy then dropCommand s else acceptCommand s v

/-- The value RESULT takes at a completion: the command's result if it completed with ERR = OK and produces one, else
the old value (R24, R243). -/
def completedResult (old : Word) (e : ErrCode) (res : Option Word) : Word :=
  match e, res with
  | .ok, some v => v
  | _, _ => old

/-- The atomic update of a completion (R243), for every command but a successful BUILD. -/
def complete (s : State) (e : ErrCode) (res : Option Word) : State :=
  { s with result := completedResult s.result e res, err := e, busy := false }

/-- `raise <Error>` (R14, R241, R245): the command ends with the code and no other effect. PTE has no trap, saves
nothing else and transfers control nowhere. -/
def completeError (s : State) (e : ErrCode) : State := complete s e none

/-- The atomic update of a successful BUILD's completion (R129, R243), TMEM holding `m`. -/
def completeBuild (s : State) (m : Memory) : State :=
  { s with tmem := m, tv := true, err := .ok, busy := false }

/-- A BUILD whose self-check fired (R130): the error code, TMEM unspecified (no byte has a value), TV as its
acceptance left it (R241). DEDUCED, safe: log 17. -/
def completeBuildInconsistent (s : State) : State :=
  { completeError s .buildInconsistent with tmem := [] }

/-- The completion of an illegal command word (R75, R243). -/
def completeIllegal (s : State) : State := completeError s .illegalOp

/-- The completion of a command whose engine answers a result, or stops on a TMEM read. -/
def finish (s : State) : Except Fault Word → Host.Outcome State Fault Refusal
  | .ok v => .next (complete s .ok (some v))
  | .error f => .fault f

/-- The guard of a table-reading command (R243, R244): NOT_BUILT when TV = 0, before anything else is looked at
(R242). -/
def whenBuilt (s : State) (body : Host.Outcome State Fault Refusal) : Host.Outcome State Fault Refusal :=
  if s.tv then body else .next (completeError s .notBuilt)

/-- The commands that read TMEM (R244). -/
def readsTables : Instr → Bool
  | .tblrd => true
  | .pdepT16 | .pdepT16Pt | .pdepT16Inv | .pdepT16InvPt => true
  | .pdepT256 | .pdepT256Pt | .pdepT256Inv | .pdepT256InvPt => true
  | .pextT16 | .pextT16Pt | .pextT16Inv | .pextT16InvPt => true
  | .pextT256 | .pextT256Pt | .pextT256Inv | .pextT256InvPt => true
  | .pdepVs | .pextVs => true
  | .nop | .build | .pextCf | .pdepRef | .pextRef | .popcntRef => false
  | .sel1Naive | .sel1Clear | .sel1Bsearch | .sel1Pdep => false

end Sys2Proof.Machine
end

