-- ==== Sys2Proof/Machine/Operands.lean ====
section
/-! DEFINITION. Every operand form of 30_encoding.md R71. All come from the latches; nothing is scaled, shifted or
extended. -/

namespace Sys2Proof.Machine

/-- `a = LA` of the PDEP and PEXT commands; `x = LA` of PEXT.CF and the select1 commands; `v = LA` of POPCNT.REF. -/
def operandA (s : State) : Word := s.la

/-- `mask = LB` of the PDEP and PEXT commands. -/
def operandMask (s : State) : Word := s.lb

/-- `k = sint64(LB)` of the select1 commands, two's complement (R12, R220). -/
def operandRank (s : State) : Int := s.lb.toInt

/-- `addr = LA` of TBLRD, an unsigned TMEM offset of 64 bits. -/
def operandOffset (s : State) : Nat := s.la.toNat

/-- The operand check of every select1 command (46_select1.md R220): K_RANGE outside [0, 63], else the command's
strategy on `x` and `k`. -/
def withRank (s : State) (strategy : Word → Nat → Word) : Host.Outcome State Fault Refusal :=
  if operandRank s < 0 ∨ 63 < operandRank s then .next (completeError s .kRange)
  else .next (complete s .ok (some (strategy (operandA s) (operandRank s).toNat)))

end Sys2Proof.Machine
end

