-- ==== Sys2Proof/Machine/Oracle.lean ====
section
/-! DEFINITION. The reference functions of 40_reference.md R100 to R104 and the Oracle commands R105 to R107. -/

namespace Sys2Proof.Machine

/-- The word whose only set bit may be bit `i`, holding `b`; 0 for `i` of 64 or more. -/
def bitAt (b : Bool) (i : Nat) : Word := (BitVec.ofBool b).setWidth 64 <<< i

/-- `popcount(v)` for a value of any width (R100): the sum of its bits. -/
def popcount {w : Nat} (v : BitVec w) : Nat :=
  (List.range w).foldl (fun c i => c + (v.getLsbD i).toNat) 0

/-- One turn of the loop of `pdep` (R101), on `(r, j)`. -/
def pdepTurn (a m : Word) (st : Word × Nat) (i : Nat) : Word × Nat :=
  if m.getLsbD i then (st.1 ||| bitAt (a.getLsbD st.2) i, st.2 + 1) else st

/-- `pdep(a, m)` (R101). -/
def pdep (a m : Word) : Word := ((List.range 64).foldl (pdepTurn a m) (0, 0)).1

/-- One turn of the loop of `pext` (R102), on `(r, j)`. -/
def pextTurn (a m : Word) (st : Word × Nat) (i : Nat) : Word × Nat :=
  if m.getLsbD i then (st.1 ||| bitAt (a.getLsbD i) st.2, st.2 + 1) else st

/-- `pext(a, m)` (R102). -/
def pext (a m : Word) : Word := ((List.range 64).foldl (pextTurn a m) (0, 0)).1

/-- The sentinel −1 of select1 (R12, R103). -/
def sentinel : Word := 0xFFFFFFFFFFFFFFFF

/-- `zext_64` of a bit position, or the sentinel where there is none. -/
def positionOrSentinel : Option Nat → Word
  | some i => BitVec.ofNat 64 i
  | none => sentinel

/-- `select1(x, k)` for 0 ≤ k < 64 (R103): the sentinel if `x` has at most `k` set bits, else the position `i` with
`x[i] = 1` and `popcount(x[i-1:0]) = k`. -/
def select1 (x : Word) (k : Nat) : Word :=
  if popcount x ≤ k then sentinel
  else positionOrSentinel ((List.range 64).find? fun i => x.getLsbD i && popcount (x.setWidth i) == k)

/-- `bsf(v)` (R104): the smallest set bit of a nonzero `v`. The spec gives bsf(0) no value and neither does the
model. DESIGN CHOICE, safe: log 21. -/
def bsf (v : Word) : Option Nat := (List.range 64).find? fun i => v.getLsbD i

/-- PDEP.REF (R105). -/
def execPdepRef (s : State) : Host.Outcome State Fault Refusal :=
  .next (complete s .ok (some (pdep (operandA s) (operandMask s))))

/-- PEXT.REF (R106). -/
def execPextRef (s : State) : Host.Outcome State Fault Refusal :=
  .next (complete s .ok (some (pext (operandA s) (operandMask s))))

/-- POPCNT.REF (R107). OPB is ignored. -/
def execPopcntRef (s : State) : Host.Outcome State Fault Refusal :=
  .next (complete s .ok (some (BitVec.ofNat 64 (popcount (operandA s)))))

end Sys2Proof.Machine
end

