-- ==== Sys2Proof/Machine/Builder.lean ====
section
/-! DEFINITION. The control commands NOP and TBLRD and the table builder BUILD (41_table_builder.md R120 to R133). -/

namespace Sys2Proof.Machine

/-- NOP (R120): completes with ERR = OK and produces no result. -/
def execNop (s : State) : Host.Outcome State Fault Refusal := .next (complete s .ok none)

/-! The table contents, `x` the value chunk and `y` the mask chunk. -/

/-- `pdep(x, y)` on two chunks (R121). -/
def chunkPdep (x y : Nat) : Word := pdep (BitVec.ofNat 64 x) (BitVec.ofNat 64 y)

/-- `pext(x, y)` on two chunks (R122). -/
def chunkPext (x y : Nat) : Word := pext (BitVec.ofNat 64 x) (BitVec.ofNat 64 y)

/-- `popcount(y)` of a chunk (R125). -/
def chunkPop (y : Nat) : Byte := BitVec.ofNat 8 (popcount (BitVec.ofNat 64 y))

/-- The byte at offset `o` of a table (R53, R121 to R127). The forward and the lane tables are value-major, the
inverse tables mask-major. -/
def Table.entry : Table → Nat → Byte
  | .tp16, o => (chunkPdep (o / 16) (o % 16)).setWidth 8
  | .tx16, o => (chunkPext (o / 16) (o % 16)).setWidth 8
  | .tpi16, o => (chunkPdep (o % 16) (o / 16)).setWidth 8
  | .txi16, o => (chunkPext (o % 16) (o / 16)).setWidth 8
  | .p16, o => chunkPop o
  | .lp, o => (chunkPdep (o / 16) (o % 16)).setWidth 8
  | .lx, o => (chunkPext (o / 16) (o % 16)).setWidth 8
  | .p256, o => chunkPop o
  | .tp256, o => (chunkPdep (o / 256) (o % 256)).setWidth 8
  | .tx256, o => (chunkPext (o / 256) (o % 256)).setWidth 8
  | .tpi256, o => (chunkPdep (o % 256) (o / 256)).setWidth 8
  | .txi256, o => (chunkPext (o % 256) (o / 256)).setWidth 8

/-- The cells of a table. -/
def Table.cells (t : Table) : Memory :=
  (List.range' t.base t.size).map fun a => (a, t.entry (a - t.base))

/-- The tables of the map of R53, by rising base. -/
def Table.all : List Table :=
  [.tp16, .tx16, .tpi16, .txi16, .p16, .lp, .lx, .p256, .tp256, .tx256, .tpi256, .txi256]

/-- TMEM once BUILD has written every table. R128 writes each backed byte and leaves the order open ("Any order of
these MemWrites meets this rule"); the writes are listed here by rising address. DEDUCED, exact: log 8. -/
def tableImage : Memory := Table.all.flatMap Table.cells

/-- The self-check of BUILD (R128, R130): no entry of a chunk width is W or more. -/
def buildConsistent : Bool :=
  [ChunkWidth.w16, .w256].all fun w =>
    (List.range w.values).all fun x => (List.range w.values).all fun y =>
      decide ((chunkPdep x y).toNat < w.values) && decide ((chunkPext x y).toNat < w.values)

/-- BUILD (R128, R129, R130). It needs no TV and reads no operand. -/
def execBuild (s : State) : Host.Outcome State Fault Refusal :=
  .next (if buildConsistent then completeBuild s tableImage else completeBuildInconsistent s)

/-! The pseudocode of R128 write by write, the order of its loops kept. `tableImage` is what they leave (log 8). -/

/-- The MemWrites of the inner loop body of R128 for one `(x, y)`, as (address, byte). -/
def pairWrites (w : ChunkWidth) (x y : Nat) : List (Nat × Byte) :=
  let p := (chunkPdep x y).setWidth 8
  let q := (chunkPext x y).setWidth 8
  [((pdepTable w .forward).base + w.values * x + y, p), ((pextTable w .forward).base + w.values * x + y, q),
   ((pdepTable w .inverse).base + w.values * y + x, p), ((pextTable w .inverse).base + w.values * y + x, q)]

/-- The MemWrites of R128 for one W. -/
def widthWrites (w : ChunkWidth) : List (Nat × Byte) :=
  ((List.range w.values).flatMap fun x => (List.range w.values).flatMap fun y => pairWrites w x y)
    ++ (List.range w.values).map fun y => ((popTable w).base + y, chunkPop y)

/-- The MemWrites of R128 for the lane tables. -/
def laneWrites : List (Nat × Byte) :=
  (List.range 16).flatMap fun x => (List.range 16).flatMap fun y =>
    [(Table.lp.base + 16 * x + y, (chunkPdep x y).setWidth 8),
     (Table.lx.base + 16 * x + y, (chunkPext x y).setWidth 8)]

/-- Every MemWrite of R128, in the order of its loops. -/
def buildWrites : List (Nat × Byte) := widthWrites .w16 ++ widthWrites .w256 ++ laneWrites

/-- TMEM after the MemWrites of R128, one after another. -/
def buildByWrites (m : Memory) : Memory := buildWrites.foldl (fun m c => memWrite m c.1 1 c.2) m

/-- TBLRD (R132): one byte of TMEM, zero-extended; BAD_INDEX for an offset that holds no storage. Every bit of the
64-bit offset counts. -/
def execTblrd (s : State) : Host.Outcome State Fault Refusal :=
  whenBuilt s
    (if tmemHole (operandOffset s) then .next (completeError s .badIndex)
     else finish s ((readByte s.tmem (operandOffset s)).map (·.setWidth 64)))

end Sys2Proof.Machine
end

