-- ==== Sys2Proof/Machine/ClosedForm.lean ====
section
/-! DEFINITION. The closed-form PEXT engine (45_closed_form.md R210, R211). It reads no TMEM. -/

namespace Sys2Proof.Machine

/-- The working values of PEXT.CF between rounds (R210). -/
structure CompressState where
  /-- The working mask `m`. -/
  m : Word
  /-- The working value `x`. -/
  x : Word
  /-- The word `mk`: bit j is 1 where bit j-1 is unselected. -/
  gaps : Word
  deriving DecidableEq, Repr

/-- The parallel prefix of R210: bit `j` is the XOR of the bits `j` to 0 of `mk`. -/
def parallelPrefix (mk : Word) : Word :=
  let p0 := mk ^^^ (mk <<< 1)
  let p1 := p0 ^^^ (p0 <<< 2)
  let p2 := p1 ^^^ (p1 <<< 4)
  let p3 := p2 ^^^ (p2 <<< 8)
  let p4 := p3 ^^^ (p3 <<< 16)
  p4 ^^^ (p4 <<< 32)

/-- Round `i` of R210, granularity 2^i. -/
def compressRound (c : CompressState) (i : Nat) : CompressState :=
  let mp := parallelPrefix c.gaps
  let mv := mp &&& c.m
  let t := c.x &&& mv
  { m := (c.m ^^^ mv) ||| (mv >>> (2 ^ i))
    x := (c.x ^^^ t) ||| (t >>> (2 ^ i))
    gaps := c.gaps &&& ~~~mp }

/-- The datapath of PEXT.CF (R210): six rounds. -/
def pextClosed (x mask : Word) : Word :=
  ((List.range 6).foldl compressRound { m := mask, x := x &&& mask, gaps := (~~~mask) <<< 1 }).x

/-- PEXT.CF (R210). -/
def execPextCf (s : State) : Host.Outcome State Fault Refusal :=
  .next (complete s .ok (some (pextClosed (operandA s) (operandMask s))))

end Sys2Proof.Machine
end

