-- ==== Sys2Proof/Machine/Select1.lean ====
section
/-! DEFINITION. The select1 engine (46_select1.md R220 to R225): four strategies after one operand check. None reads
TMEM. -/

namespace Sys2Proof.Machine

/-- The linear scan of R221 over the positions still to visit, `c` set bits seen so far. -/
def scanFrom (x : Word) (k : Nat) : List Nat → Nat → Option Nat
  | [], _ => none
  | i :: is, c =>
    if x.getLsbD i then (if c = k then some i else scanFrom x k is (c + 1)) else scanFrom x k is c

/-- The strategy of SEL1.NAIVE (R221). -/
def selectNaive (x : Word) (k : Nat) : Word := positionOrSentinel (scanFrom x k (List.range 64) 0)

/-- Clear the `k` lowest set bits by `y & (y - 1)` (R222). -/
def clearLowest (x : Word) (k : Nat) : Word := (List.range k).foldl (fun y _ => y &&& (y - 1)) x

/-- The strategy of SEL1.CLEAR (R222); `y = 0` gives the sentinel, so bsf(0) is never taken. -/
def selectClear (x : Word) (k : Nat) : Word := positionOrSentinel (bsf (clearLowest x k))

/-- One step of the binary search of R223, on `(lo, hi)`. -/
def searchStep (x : Word) (k : Nat) (b : Nat × Nat) (_ : Nat) : Nat × Nat :=
  let mid := (b.1 + b.2) / 2
  if popcount (x &&& (((1 : Word) <<< mid) - 1)) ≤ k then (mid, b.2) else (b.1, mid)

/-- The strategy of SEL1.BSEARCH (R223): the sentinel test, then exactly 6 steps. -/
def selectSearch (x : Word) (k : Nat) : Word :=
  if popcount x ≤ k then sentinel
  else BitVec.ofNat 64 ((List.range 6).foldl (searchStep x k) (0, 64)).1

/-- The strategy of SEL1.PDEP (R224), over the Oracle's deposit; `r = 0` gives the sentinel. -/
def selectPdep (x : Word) (k : Nat) : Word := positionOrSentinel (bsf (pdep ((1 : Word) <<< k) x))

/-- SEL1.NAIVE (R221). -/
def execSel1Naive (s : State) : Host.Outcome State Fault Refusal := withRank s selectNaive

/-- SEL1.CLEAR (R222). -/
def execSel1Clear (s : State) : Host.Outcome State Fault Refusal := withRank s selectClear

/-- SEL1.BSEARCH (R223). -/
def execSel1Bsearch (s : State) : Host.Outcome State Fault Refusal := withRank s selectSearch

/-- SEL1.PDEP (R224). -/
def execSel1Pdep (s : State) : Host.Outcome State Fault Refusal := withRank s selectPdep

end Sys2Proof.Machine
end

