-- ==== Sys2Proof/Machine/TablePdep.lean ====
section
/-! DEFINITION. Table-driven PDEP (42_table_pdep.md R150 to R163): the chunk walk once, then its eight commands. -/

namespace Sys2Proof.Machine

/-- Chunk `i` of a word (R7): `v[kb*i + kb - 1 : kb*i]`. -/
def chunkOf (w : ChunkWidth) (v : Word) (i : Nat) : Nat := (v >>> (w.bits * i)).toNat % w.values

/-- A chunk's popcount, from the circuit (D32) or from the table P_W (R150, R170). -/
def chunkPopcount (w : ChunkWidth) (src : PopSource) (m : Memory) (b : Nat) : Except Fault Nat :=
  match src with
  | .circuit => .ok (popcount (BitVec.ofNat 64 b))
  | .table => (readByte m ((popTable w).base + b)).map (·.toNat)

/-- The address of the entry for value chunk `v` and mask chunk `b` (R53): `T[v][b]`, or `T_inv[b][v]`. -/
def entryAddr (w : ChunkWidth) (inv : Orientation) (t : Table) (v b : Nat) : Nat :=
  match inv with
  | .forward => t.base + w.values * v + b
  | .inverse => t.base + w.values * b + v

/-- One chunk of the walk of R150, on `(out, s)`. -/
def pdepChunk (w : ChunkWidth) (inv : Orientation) (src : PopSource) (m : Memory) (mask : Word)
    (st : Word × Word) (i : Nat) : Except Fault (Word × Word) := do
  let b := chunkOf w mask i
  let v := st.2.toNat % w.values
  let t ← readByte m (entryAddr w inv (pdepTable w inv) v b)
  let c ← chunkPopcount w src m b
  return (st.1 ||| (t.setWidth 64 <<< (w.bits * i)), st.2 >>> c)

/-- `TablePdep(W, INV, PSRC, a, mask)` (R150). All n chunks are walked; the early exit of R163 has no architectural
effect. DESIGN CHOICE, exact: log 10. -/
def tablePdep (w : ChunkWidth) (inv : Orientation) (src : PopSource) (m : Memory) (a mask : Word) :
    Except Fault Word := do
  let st ← (List.range w.chunks).foldlM (pdepChunk w inv src m mask) (0, a)
  return st.1

/-- The common behaviour of the eight commands (R152). -/
def tablePdepCommand (w : ChunkWidth) (inv : Orientation) (src : PopSource) (s : State) :
    Host.Outcome State Fault Refusal :=
  whenBuilt s (finish s (tablePdep w inv src s.tmem (operandA s) (operandMask s)))

/-- PDEP.T16 (R153). -/
def execPdepT16 (s : State) : Host.Outcome State Fault Refusal := tablePdepCommand .w16 .forward .circuit s

/-- PDEP.T16.PT (R154). -/
def execPdepT16Pt (s : State) : Host.Outcome State Fault Refusal := tablePdepCommand .w16 .forward .table s

/-- PDEP.T16.INV (R155). -/
def execPdepT16Inv (s : State) : Host.Outcome State Fault Refusal := tablePdepCommand .w16 .inverse .circuit s

/-- PDEP.T16.INV.PT (R156). -/
def execPdepT16InvPt (s : State) : Host.Outcome State Fault Refusal := tablePdepCommand .w16 .inverse .table s

/-- PDEP.T256 (R157). -/
def execPdepT256 (s : State) : Host.Outcome State Fault Refusal := tablePdepCommand .w256 .forward .circuit s

/-- PDEP.T256.PT (R158). -/
def execPdepT256Pt (s : State) : Host.Outcome State Fault Refusal := tablePdepCommand .w256 .forward .table s

/-- PDEP.T256.INV (R159). -/
def execPdepT256Inv (s : State) : Host.Outcome State Fault Refusal := tablePdepCommand .w256 .inverse .circuit s

/-- PDEP.T256.INV.PT (R160). -/
def execPdepT256InvPt (s : State) : Host.Outcome State Fault Refusal := tablePdepCommand .w256 .inverse .table s

end Sys2Proof.Machine
end

