-- ==== Sys2Proof/Machine/TablePext.lean ====
section
/-! DEFINITION. Table-driven PEXT (43_table_pext.md R170 to R183): the chunk walk once, then its eight commands. -/

namespace Sys2Proof.Machine

/-- One chunk of the walk of R170, on `(out, off)`. -/
def pextChunk (w : ChunkWidth) (inv : Orientation) (src : PopSource) (m : Memory) (a mask : Word)
    (st : Word × Nat) (i : Nat) : Except Fault (Word × Nat) := do
  let b := chunkOf w mask i
  let v := chunkOf w a i
  let t ← readByte m (entryAddr w inv (pextTable w inv) v b)
  let c ← chunkPopcount w src m b
  return (st.1 ||| (t.setWidth 64 <<< st.2), st.2 + c)

/-- `TablePext(W, INV, PSRC, a, mask)` (R170). All n chunks are walked; the early exit of R183 changes no result.
DESIGN CHOICE, exact: log 10. -/
def tablePext (w : ChunkWidth) (inv : Orientation) (src : PopSource) (m : Memory) (a mask : Word) :
    Except Fault Word := do
  let st ← (List.range w.chunks).foldlM (pextChunk w inv src m a mask) (0, 0)
  return st.1

/-- The common behaviour of the eight commands (R172). -/
def tablePextCommand (w : ChunkWidth) (inv : Orientation) (src : PopSource) (s : State) :
    Host.Outcome State Fault Refusal :=
  whenBuilt s (finish s (tablePext w inv src s.tmem (operandA s) (operandMask s)))

/-- PEXT.T16 (R173). -/
def execPextT16 (s : State) : Host.Outcome State Fault Refusal := tablePextCommand .w16 .forward .circuit s

/-- PEXT.T16.PT (R174). -/
def execPextT16Pt (s : State) : Host.Outcome State Fault Refusal := tablePextCommand .w16 .forward .table s

/-- PEXT.T16.INV (R175). -/
def execPextT16Inv (s : State) : Host.Outcome State Fault Refusal := tablePextCommand .w16 .inverse .circuit s

/-- PEXT.T16.INV.PT (R176). -/
def execPextT16InvPt (s : State) : Host.Outcome State Fault Refusal := tablePextCommand .w16 .inverse .table s

/-- PEXT.T256 (R177). -/
def execPextT256 (s : State) : Host.Outcome State Fault Refusal := tablePextCommand .w256 .forward .circuit s

/-- PEXT.T256.PT (R178). -/
def execPextT256Pt (s : State) : Host.Outcome State Fault Refusal := tablePextCommand .w256 .forward .table s

/-- PEXT.T256.INV (R179). -/
def execPextT256Inv (s : State) : Host.Outcome State Fault Refusal := tablePextCommand .w256 .inverse .circuit s

/-- PEXT.T256.INV.PT (R180). -/
def execPextT256InvPt (s : State) : Host.Outcome State Fault Refusal := tablePextCommand .w256 .inverse .table s

end Sys2Proof.Machine
end

