-- ==== Sys2Proof/Machine/VectorShuffle.lean ====
section
/-! DEFINITION. The vector-shuffle engine (44_vector_shuffle.md R190 to R195). -/

namespace Sys2Proof.Machine

/-- Byte `j` of a 128-bit vector (R8): `V[8j+7:8j]`. -/
def laneByte (v : Lane) (j : Nat) : Byte := v.extractLsb' (8 * j) 8

/-- The 128-bit vector whose byte `j` is `f j` (R8). -/
def laneOfBytes (f : Nat → Byte) : Lane :=
  (List.range 16).foldl (fun r j => r ||| ((f j).setWidth 128 <<< (8 * j))) 0

/-- `Shuffle(V, I)` (R190): byte `j` is 0 if bit 7 of the index byte is set, else the byte of `V` it selects. -/
def shuffle (v i : Lane) : Lane :=
  laneOfBytes fun j =>
    if (laneByte i j).getLsbD 7 then 0 else laneByte v ((laneByte i j).toNat % 16)

/-- Bits `p + 3` to `p` of a word, as a byte. -/
def nibbleAt (v : Word) (p : Nat) : Byte := (v.extractLsb' p 4).setWidth 8

/-- LO, the low mask nibble of each of the 8 byte lanes (R192). -/
def loNibbles (mask : Word) : Lane := laneOfBytes fun i => if i < 8 then nibbleAt mask (8 * i) else 0

/-- HI, the high mask nibble of each of the 8 byte lanes (R192). -/
def hiNibbles (mask : Word) : Lane := laneOfBytes fun i => if i < 8 then nibbleAt mask (8 * i + 4) else 0

/-- The lane vector `MemRead(B + 16x, 16)` (R191). -/
def laneVector (m : Memory) (t : Table) (x : Nat) : Except Fault Lane := memRead m (t.base + 16 * x) 16

/-- Lane `i` of PDEP.VS (R193), on `(out, s)`. The popcounts come from P16. -/
def pdepVsLane (m : Memory) (mask : Word) (st : Word × Word) (i : Nat) : Except Fault (Word × Word) := do
  let lo := loNibbles mask
  let hi := hiNibbles mask
  let vl ← laneVector m .lp (st.2.toNat % 16)
  let pl ← readByte m (Table.p16.base + (laneByte lo i).toNat)
  let s := st.2 >>> pl.toNat
  let vh ← laneVector m .lp (s.toNat % 16)
  let ph ← readByte m (Table.p16.base + (laneByte hi i).toNat)
  let r := laneByte (shuffle vl lo) i
  let h := laneByte (shuffle vh hi) i
  return (st.1 ||| ((r ||| (h <<< 4)).setWidth 64 <<< (8 * i)), s >>> ph.toNat)

/-- The datapath of PDEP.VS (R193). -/
def pdepVs (m : Memory) (a mask : Word) : Except Fault Word := do
  let st ← (List.range 8).foldlM (pdepVsLane m mask) (0, a)
  return st.1

/-- Lane `i` of PEXT.VS (R194), on `(out, acc_pop)`. -/
def pextVsLane (m : Memory) (a mask : Word) (st : Word × Nat) (i : Nat) : Except Fault (Word × Nat) := do
  let lo := loNibbles mask
  let hi := hiNibbles mask
  let vl ← laneVector m .lx (nibbleAt a (8 * i)).toNat
  let vh ← laneVector m .lx (nibbleAt a (8 * i + 4)).toNat
  let pl ← readByte m (Table.p16.base + (laneByte lo i).toNat)
  let ph ← readByte m (Table.p16.base + (laneByte hi i).toNat)
  let r := laneByte (shuffle vl lo) i
  let h := laneByte (shuffle vh hi) i
  let c := r.setWidth 64 ||| (h.setWidth 64 <<< pl.toNat)
  return (st.1 ||| (c <<< st.2), st.2 + pl.toNat + ph.toNat)

/-- The datapath of PEXT.VS (R194). -/
def pextVs (m : Memory) (a mask : Word) : Except Fault Word := do
  let st ← (List.range 8).foldlM (pextVsLane m a mask) (0, 0)
  return st.1

/-- PDEP.VS (R193). -/
def execPdepVs (s : State) : Host.Outcome State Fault Refusal :=
  whenBuilt s (finish s (pdepVs s.tmem (operandA s) (operandMask s)))

/-- PEXT.VS (R194). -/
def execPextVs (s : State) : Host.Outcome State Fault Refusal :=
  whenBuilt s (finish s (pextVs s.tmem (operandA s) (operandMask s)))

end Sys2Proof.Machine
end

