-- ==== Sys2Proof/Machine/Dispatch.lean ====
section
/-! DEFINITION. The completion of each command (60_exceptions.md R243), one arm per row of R74. -/

namespace Sys2Proof.Machine

def exec (i : Instr) (s : State) : Host.Outcome State Fault Refusal :=
  match i with
  | .nop => Sys2Proof.Machine.execNop s
  | .build => Sys2Proof.Machine.execBuild s
  | .tblrd => Sys2Proof.Machine.execTblrd s
  | .pdepT16 => Sys2Proof.Machine.execPdepT16 s
  | .pdepT16Pt => Sys2Proof.Machine.execPdepT16Pt s
  | .pdepT16Inv => Sys2Proof.Machine.execPdepT16Inv s
  | .pdepT16InvPt => Sys2Proof.Machine.execPdepT16InvPt s
  | .pdepT256 => Sys2Proof.Machine.execPdepT256 s
  | .pdepT256Pt => Sys2Proof.Machine.execPdepT256Pt s
  | .pdepT256Inv => Sys2Proof.Machine.execPdepT256Inv s
  | .pdepT256InvPt => Sys2Proof.Machine.execPdepT256InvPt s
  | .pextT16 => Sys2Proof.Machine.execPextT16 s
  | .pextT16Pt => Sys2Proof.Machine.execPextT16Pt s
  | .pextT16Inv => Sys2Proof.Machine.execPextT16Inv s
  | .pextT16InvPt => Sys2Proof.Machine.execPextT16InvPt s
  | .pextT256 => Sys2Proof.Machine.execPextT256 s
  | .pextT256Pt => Sys2Proof.Machine.execPextT256Pt s
  | .pextT256Inv => Sys2Proof.Machine.execPextT256Inv s
  | .pextT256InvPt => Sys2Proof.Machine.execPextT256InvPt s
  | .pdepVs => Sys2Proof.Machine.execPdepVs s
  | .pextVs => Sys2Proof.Machine.execPextVs s
  | .pextCf => Sys2Proof.Machine.execPextCf s
  | .pdepRef => Sys2Proof.Machine.execPdepRef s
  | .pextRef => Sys2Proof.Machine.execPextRef s
  | .popcntRef => Sys2Proof.Machine.execPopcntRef s
  | .sel1Naive => Sys2Proof.Machine.execSel1Naive s
  | .sel1Clear => Sys2Proof.Machine.execSel1Clear s
  | .sel1Bsearch => Sys2Proof.Machine.execSel1Bsearch s
  | .sel1Pdep => Sys2Proof.Machine.execSel1Pdep s

end Sys2Proof.Machine
end

