-- ==== Sys2Proof/Machine/Flags.lean ====
section
/-! DEFINITION. The STATUS word: its fields and the error codes (10_state.md R25, 60_exceptions.md R240). The rules
that compute each field are acceptance and completion (R26), in Machine/Ops.lean. -/

namespace Sys2Proof.Machine

/-- The code of an error (R240). -/
def ErrCode.code : ErrCode → BitVec 4
  | .ok => 0
  | .illegalOp => 1
  | .notBuilt => 2
  | .kRange => 3
  | .badIndex => 4
  | .buildInconsistent => 5

/-- STATUS as the host reads it (R25): BUSY in bit 0, TV in bit 1, OVR in bit 2, bit 3 hardwired 0, ERR in bits 7:4,
bits 63:8 hardwired 0. -/
def statusWord (s : State) : Word :=
  (BitVec.ofBool s.busy).setWidth 64
    ||| ((BitVec.ofBool s.tv).setWidth 64 <<< 1)
    ||| ((BitVec.ofBool s.ovr).setWidth 64 <<< 2)
    ||| (s.err.code.setWidth 64 <<< 4)

end Sys2Proof.Machine
end

