-- ==== Sys2Proof/Machine/Window.lean ====
section
/-! DEFINITION. The register window (10_state.md R20 to R31, 20_memory.md R50, R56 to R58): what a host access reads,
writes and is answered, and the host notation of 30_encoding.md R79. -/

namespace Sys2Proof.Machine

/-- The interface registers (R20). -/
inductive Reg where
  | opa | opb | cmd | result | status
  deriving DecidableEq, Repr

/-- The register number of R20; register r stands at offset 8r. -/
def Reg.number : Reg → Nat
  | .opa => 0
  | .opb => 1
  | .cmd => 2
  | .result => 3
  | .status => 4

/-- The byte offset of a register in the window (R20). -/
def Reg.offset (r : Reg) : Nat := 8 * r.number

/-- The register at an offset of the window; none at the reserved offsets 0x28, 0x30 and 0x38 (R30). -/
def regAt (off : Nat) : Option Reg := [Reg.opa, .opb, .cmd, .result, .status].find? (fun r => r.offset == off)

/-- A host read of a register (R20 to R25). CMD reads 0. No read changes anything (R58). -/
def readReg (s : State) : Reg → Word
  | .opa => s.opa
  | .opb => s.opb
  | .cmd => 0
  | .result => s.result
  | .status => statusWord s

/-- A host write of a register. A write to CMD is a command request (R31); writes to RESULT and STATUS are ignored
(R24, R25). -/
def writeReg (s : State) : Reg → Word → State
  | .opa, v => { s with opa := v }
  | .opb, v => { s with opb := v }
  | .cmd, v => requestCommand s v
  | .result, _ => s
  | .status, _ => s

/-- An accepted host read at an offset: reserved offsets read 0 (R30). -/
def windowRead (s : State) (off : Nat) : Word :=
  match regAt off with
  | some r => readReg s r
  | none => 0

/-- An accepted host write at an offset: reserved offsets ignore it (R30). -/
def windowWrite (s : State) (off : Nat) (v : Word) : State :=
  match regAt off with
  | some r => writeReg s r v
  | none => s

/-- The accepted accesses: 8 bytes wide, at a multiple of 8, within the 0x40-byte window (R56). -/
def accessAccepted (off width : Nat) : Bool := width == 8 && off % 8 == 0 && decide (off + width ≤ 0x40)

/-- A rejected access has no effect on PTE; the model stops the host's step with the platform's BUS_ERROR (R56): log 7. -/
def rejectAccess : Host.Outcome State Fault Refusal := .fault (.hostAccessRejected Config.busError)

/-- One access of the Host (R58, R62): an atomic step. `reply` is what the bus answers (log 4). -/
def hostStep (s : State) : HostAccess → Host.Outcome State Fault Refusal
  | .read off width =>
    if accessAccepted off width then .next { s with reply := .data (windowRead s off) } else rejectAccess
  | .write off width v =>
    if accessAccepted off width then .next { windowWrite s off v with reply := .written } else rejectAccess

/-- The reset input (R270 to R272): every register and STATUS take their reset values, a command in flight is
abandoned, TMEM is left without values, and the latches take the values log 5 names. The moves still to come are the
surroundings', not PTE's, and stay. DESIGN CHOICE: log 18. -/
def resetInput (s : State) : State := { State.reset with inputs := s.inputs }

/-! The host's address of the window, and the notation of R79. -/

/-- The window offset of a host address (R50); log 12. -/
def windowOffset (addr : Word) : Nat := (addr - Config.base).toNat

/-- A read at a host address (R50). -/
def readAt (addr : Word) (width : Nat) : HostAccess := .read (windowOffset addr) width

/-- A write at a host address (R50). -/
def writeAt (addr : Word) (width : Nat) (v : Word) : HostAccess := .write (windowOffset addr) width v

/-- `ST <reg>, v` (R79). -/
def hostSt (r : Reg) (v : Word) : HostAccess := .write r.offset 8 v

/-- `LD <h>, <reg>` (R79); the value read is the reply. -/
def hostLd (r : Reg) : HostAccess := .read r.offset 8

/-- `ISSUE <mnemonic>` (R79). -/
def hostIssue (i : Instr) : HostAccess := hostSt .cmd (encode i)

/-- The moves of `CALL <mnemonic>, a, b` (R79) when the first `n` reads of STATUS by POLL find BUSY = 1 and the
completion falls before the next one. -/
def callMoves (i : Instr) (a b : Word) (n : Nat) : List Input :=
  [.host (hostSt .opa a), .host (hostSt .opb b), .host (hostIssue i)]
    ++ List.replicate n (.host (hostLd .status))
    ++ [.engine, .host (hostLd .status), .host (hostLd .result)]

end Sys2Proof.Machine
end

