-- ==== Sys2Proof/Machine/Engine.lean ====
section
/-! DEFINITION. The Engine's step (60_exceptions.md R243) and the next move of PTE's surroundings (20_memory.md R61,
R62). -/

namespace Sys2Proof.Machine

/-- `Complete()` (R243): decode the latched word and complete the command it stands for. -/
def completion (s : State) : Host.Outcome State Fault Refusal :=
  match decodeLatched s.lop s.lrsv with
  | .ok i => exec i s
  | .error _ => .next (completeIllegal s)

/-- The Engine's turn: a completion while BUSY = 1 (R243); while BUSY = 0 it is idle and keeps all state (R255).
DESIGN CHOICE, safe: log 3. -/
def engineTurn (s : State) : Host.Outcome State Fault Refusal :=
  if s.busy then completion s else .next s

/-- One move of the surroundings, `inputs` already shortened by it. -/
def move (s : State) : Input → Host.Outcome State Fault Refusal
  | .host access => hostStep s access
  | .engine => engineTurn s
  | .reset => .next (resetInput s)

/-- Place the command word `w` (its low `nbits` bits, every bit above them 0) as the command in flight: the acceptance
of R31 by an idle PTE, and the Engine to move next. BUSY is cleared first, since a busy PTE would drop the word: log 15. -/
def placeCommand (s : State) (nbits w : Nat) : State :=
  { acceptCommand { s with busy := false } (BitVec.ofNat 64 (w % 2 ^ nbits)) with inputs := .engine :: s.inputs }

end Sys2Proof.Machine
end

