-- ==== Sys2Proof/Machine/Step.lean ====
section
/-! DEFINITION. One step of the machine: the next move of `inputs`, or the Engine's turn when none is left. -/

namespace Sys2Proof.Machine

/-- One atomic step of the Host, the Engine or the reset input (R61, R62). With no move left the Engine takes its turn:
a command in flight always completes (R243, R292). DESIGN CHOICE: log 1, log 2. -/
def step (s : State) : Host.Outcome State Fault Refusal :=
  match s.inputs with
  | [] => engineTurn s
  | m :: rest => move { s with inputs := rest } m

/-- The machine that runs the given command word in its very next step: log 15. -/
def State.withFetchWord (s : State) (nbits w : Nat) : State := placeCommand s nbits w

end Sys2Proof.Machine
end

