-- ==== Sys2Proof/Safety.lean ====
section
/-! DEFINITION. What counts as a sound state and as a safe run, in the terms claims use. -/

namespace Sys2Proof.Machine

/-- TMEM holds, at every backed byte, the value R121 to R127 give it (R129). -/
def TablesHold (m : Memory) : Prop := ∀ t : Table, ∀ o < t.size, m.read (t.base + o) = some (t.entry o)

/-- Every listed byte has storage (R54). -/
def OnlyBacked (m : Memory) : Prop := ∀ c ∈ m, tmemHole c.1 = false

/-- The invariant of PTE. -/
structure Inv (s : State) : Prop where
  /-- TMEM keeps its canonical form. -/
  canonical : Memory.wf s.tmem
  /-- A hole holds no byte (R54). -/
  backed : OnlyBacked s.tmem
  /-- While TV = 1, TMEM holds the tables (R129). -/
  tables : s.tv = true → TablesHold s.tmem
  /-- TV reads 0 while a BUILD is in flight (R31, R131). -/
  building : s.busy = true → s.lrsv = false → s.lop = opcode .build → s.tv = false

/-! Runs and the moves that come next. -/

/-- `k` steps, stopping at the first fault or refusal. -/
def run : Nat → State → Host.Outcome State Fault Refusal
  | 0, s => .next s
  | k + 1, s =>
    match step s with
    | .next t => run k t
    | .fault f => .fault f
    | .refused q => .refused q

/-- The next step is a host write of `v` to the register at `off`. -/
def writesNext (s : State) (off : Nat) (v : Word) : Prop := ∃ rest, s.inputs = .host (.write off 8 v) :: rest

/-- The next step is an acceptance of the command word `v` (R31). -/
def acceptsNext (s : State) (v : Word) : Prop := s.busy = false ∧ writesNext s 0x10 v

/-- The next step is a CMD write that is dropped (R31). -/
def dropsNext (s : State) : Prop := s.busy = true ∧ ∃ v, writesNext s 0x10 v

/-- The next step is the reset input (R270). -/
def resetsNext (s : State) : Prop := ∃ rest, s.inputs = .reset :: rest

/-- The next step is a completion: BUSY = 1 and it is the Engine's turn (R243). -/
def completesNext (s : State) : Bool :=
  s.busy && match s.inputs with
    | [] => true
    | .engine :: _ => true
    | _ => false

/-- A host write of an operand register: of OPA where the flag is true, else of OPB (R21, R22). -/
def operandWrite (w : Bool × Word) : Input := .host (.write (if w.1 then 0x00 else 0x08) 8 w.2)

/-- What OPA and OPB hold after operand writes, the first one first. -/
def lastOperands : Word × Word → List (Bool × Word) → Word × Word
  | p, [] => p
  | p, (toA, v) :: ws => lastOperands (if toA then (v, p.2) else (p.1, v)) ws

/-- An outcome as the host can come to know it: the latches and TMEM, which it cannot read directly (R29, R33), left
out. -/
def observed : Host.Outcome State Fault Refusal → Host.Outcome State Fault Refusal
  | .next t => .next { t with lop := 0, lrsv := false, la := 0, lb := 0, tmem := [] }
  | .fault f => .fault f
  | .refused q => .refused q

/-- The tables a command reads, by the "TMEM reads" lines of R153 to R160, R173 to R180, R193 and R194; TBLRD may read
any (R132). -/
def tablesRead : Instr → List Table
  | .pdepT16 => [.tp16]
  | .pdepT16Pt => [.tp16, .p16]
  | .pdepT16Inv => [.tpi16]
  | .pdepT16InvPt => [.tpi16, .p16]
  | .pdepT256 => [.tp256]
  | .pdepT256Pt => [.tp256, .p256]
  | .pdepT256Inv => [.tpi256]
  | .pdepT256InvPt => [.tpi256, .p256]
  | .pextT16 => [.tx16]
  | .pextT16Pt => [.tx16, .p16]
  | .pextT16Inv => [.txi16]
  | .pextT16InvPt => [.txi16, .p16]
  | .pextT256 => [.tx256]
  | .pextT256Pt => [.tx256, .p256]
  | .pextT256Inv => [.txi256]
  | .pextT256InvPt => [.txi256, .p256]
  | .pdepVs => [.lp, .p16]
  | .pextVs => [.lx, .p16]
  | .tblrd => Table.all
  | .nop | .build | .pextCf | .pdepRef | .pextRef | .popcntRef => []
  | .sel1Naive | .sel1Clear | .sel1Bsearch | .sel1Pdep => []

/-- A step no fault of the host program ends: it goes on, and if it is a completion then with ERR = OK (R256, D13):
log 19. -/
def safeStep (s : State) : Bool :=
  match step s with
  | .next t => !completesNext s || t.err == .ok
  | .fault _ => false
  | .refused _ => false

/-- A run of `k` steps that is safe throughout (R256). -/
def safeRun : Nat → State → Bool
  | 0, _ => true
  | k + 1, s =>
    safeStep s && match step s with
      | .next t => safeRun k t
      | .fault _ => false
      | .refused _ => false

end Sys2Proof.Machine
end

