-- ==== Sys2Proof/WellFormed.lean ====
section
/-! DEFINITION. Which terms stand for something the hardware's encodings can say: command words (30_encoding.md R70,
R75) and host transactions (R80). A command has no operand, so every `Instr` is well formed. -/

namespace Sys2Proof

/-- A command carries no operand field that could be out of range (R70, R71). -/
def Instr.wellFormed : Instr → Bool := fun _ => true

/-- A command word is legal when RSV = 0 and its OPCODE is assigned (R74, R75). -/
def commandWordWellFormed (w : Word) : Bool :=
  !wordRsvNonzero w && (opcodeRows.map (·.1)).contains (wordOpcode w)

/-- A host transaction of R80: eight bytes wide. -/
def Machine.HostAccess.widthOk : Machine.HostAccess → Bool
  | .read _ width => width == 8
  | .write _ width _ => width == 8

/-- A host transaction of R80: the offset a multiple of 8. -/
def Machine.HostAccess.alignedOk : Machine.HostAccess → Bool
  | .read off _ => off % 8 == 0
  | .write off _ _ => off % 8 == 0

/-- A host transaction of R80: the offset in the range 0x00 to 0x38. -/
def Machine.HostAccess.rangeOk : Machine.HostAccess → Bool
  | .read off _ => off ≤ 0x38
  | .write off _ _ => off ≤ 0x38

/-- A host transaction as R80 encodes it. -/
def Machine.HostAccess.wellFormed (h : Machine.HostAccess) : Bool := h.widthOk && h.alignedOk && h.rangeOk

end Sys2Proof
end

