-- ==== Sys2Proof/Certificates/Slice0/Obligations.lean ====
section
/-! DEFINITION. The statements for the provers. Each docstring names the rule of spec/ it formalises. -/

open Sys2Proof Sys2Proof.Machine

/-! Encoding (30_encoding.md). -/

/-- R74, R76: decoding the command word of a command gives the command back, as a word and as its bytes. -/
def Obligations.EncodeThenDecodeGivesTheCommand : Prop :=
  ∀ i : Instr, decodeWord (encode i) = .ok i ∧ decodeBytes (encodeBytes i) = .ok i
    ∧ decodeTableWord 64 (encode i).toNat = some i

/-- R75, R76: a word decodes to a command exactly when it is that command's word, and every other word is rejected. -/
def Obligations.OnlyCommandWordsDecode : Prop :=
  ∀ w : Word, (∀ i, decodeWord w = .ok i ↔ w = encode i)
    ∧ ((∀ i, w ≠ encode i) → ∃ r, decodeWord w = .error r)

/-- R74: one word of each family, its bits written out. -/
def Obligations.SampleCommandWordsDecode : Prop :=
  decodeWord 0b0000000000000000000000000000000000000000000000000000000000000001 = .ok .build
    ∧ decodeWord 0b0000000000000000000000000000000000000000000000000000000000010110 = .ok .pdepT256Inv
    ∧ decodeWord 0b0000000000000000000000000000000000000000000000000000000000011001 = .ok .pextT16Pt
    ∧ decodeWord 0b0000000000000000000000000000000000000000000000000000000000100001 = .ok .pextVs
    ∧ decodeWord 0b0000000000000000000000000000000000000000000000000000000000110000 = .ok .pextCf
    ∧ decodeWord 0b0000000000000000000000000000000000000000000000000000000001000010 = .ok .popcntRef
    ∧ decodeWord 0b0000000000000000000000000000000000000000000000000000000001010011 = .ok .sel1Pdep
    ∧ decodeWord 0b0000000000000000000000000000000000000000000000000000000100010000 = .error .rsvNonzero

/-- R73: in class 0x1 the low four OPCODE bits are OP, WID, INV and PSRC, and all 16 combinations are assigned. -/
def Obligations.TableClassBitsSelectTheDatapath : Prop :=
  ∀ wid inv psrc : Bool,
    let low : BitVec 8 := 4 * (if wid then 1 else 0) + 2 * (if inv then 1 else 0) + (if psrc then 1 else 0)
    let w := if wid then ChunkWidth.w256 else .w16
    let o := if inv then Orientation.inverse else .forward
    let p := if psrc then PopSource.table else .circuit
    (∃ i, decodeLatched (0x10 + low) false = .ok i ∧ ∀ s, exec i s = tablePdepCommand w o p s)
      ∧ (∃ i, decodeLatched (0x18 + low) false = .ok i ∧ ∀ s, exec i s = tablePextCommand w o p s)

/-! Reset (70_reset_and_hazards.md, 10_state.md R34). -/

/-- R20, R25, R34: the reset value of every register the host can read and of every STATUS field. -/
def Obligations.ResetClearsEveryReadableRegister : Prop :=
  State.reset.opa = 0 ∧ State.reset.opb = 0 ∧ State.reset.result = 0 ∧ State.reset.busy = false
    ∧ State.reset.tv = false ∧ State.reset.ovr = false ∧ State.reset.err = .ok
    ∧ ∀ off ∈ [0x00, 0x08, 0x10, 0x18, 0x20, 0x28, 0x30, 0x38], windowRead State.reset off = 0

/-- R272: the reset input abandons the command in flight, which never completes; RESULT and STATUS take their reset
values. That no byte of TMEM has a value afterwards is the model's form of "unspecified" (log 6). -/
def Obligations.ResetInputAbandonsTheCommand : Prop :=
  ∀ (s : State) (n : Nat) (rest : List Input), s.inputs = .reset :: List.replicate n .engine ++ rest →
    ∃ t, step s = .next t ∧ t.opa = 0 ∧ t.opb = 0 ∧ t.result = 0 ∧ statusWord t = 0
      ∧ (∀ a, t.tmem.read a = none) ∧ run (n + 1) s = .next { t with inputs := rest }

/-! The register window (10_state.md, 20_memory.md). -/

/-- R56: an access is accepted exactly when it is 8 bytes wide at a multiple of 8 inside the window; any other stops
the host's step. -/
def Obligations.OnlyAlignedEightByteAccessesAreAccepted : Prop :=
  ∀ (s : State) (off width : Nat) (v : Word) (rest : List Input),
    s.inputs = .host (.read off width) :: rest ∨ s.inputs = .host (.write off width v) :: rest →
      (width = 8 ∧ off % 8 = 0 ∧ off < 0x40 → ∃ t, step s = .next t)
      ∧ (¬(width = 8 ∧ off % 8 = 0 ∧ off < 0x40) → step s = .fault (.hostAccessRejected Config.busError))

/-- R20, R23, R30, R58: what a host read of each offset returns; it changes nothing in PTE. -/
def Obligations.HostReadReturnsTheRegister : Prop :=
  ∀ (s : State) (off : Nat) (v : Word) (rest : List Input), s.inputs = .host (.read off 8) :: rest →
    (off, v) ∈ [(0x00, s.opa), (0x08, s.opb), (0x10, 0), (0x18, s.result), (0x20, statusWord s),
      (0x28, 0), (0x30, 0), (0x38, 0)] →
    step s = .next { s with inputs := rest, reply := .data v }

/-- R21, R22, R58: a write to OPA or OPB stores all 64 bits and does nothing else, also while BUSY = 1, and a later
read returns the value. -/
def Obligations.OperandWriteThenReadReturnsTheValue : Prop :=
  ∀ (s : State) (v : Word) (rest : List Input),
    (s.inputs = .host (.write 0x00 8 v) :: .host (.read 0x00 8) :: rest →
      step s = .next { s with opa := v, inputs := .host (.read 0x00 8) :: rest, reply := .written }
      ∧ run 2 s = .next { s with opa := v, inputs := rest, reply := .data v })
    ∧ (s.inputs = .host (.write 0x08 8 v) :: .host (.read 0x08 8) :: rest →
      step s = .next { s with opb := v, inputs := .host (.read 0x08 8) :: rest, reply := .written }
      ∧ run 2 s = .next { s with opb := v, inputs := rest, reply := .data v })

/-- R24, R25, R30, R58: writes to RESULT, STATUS and the reserved offsets have no effect. -/
def Obligations.ReadOnlyAndReservedWritesAreIgnored : Prop :=
  ∀ (s : State) (off : Nat) (v : Word) (rest : List Input), off ∈ [0x18, 0x20, 0x28, 0x30, 0x38] →
    s.inputs = .host (.write off 8 v) :: rest → step s = .next { s with inputs := rest, reply := .written }

/-- R25, R240: the layout of STATUS and the error codes; bit 3 and bits 63:8 read 0 and ERR is at most 5 (R26). -/
def Obligations.StatusWordHasTheStatedLayout : Prop :=
  (∀ s : State, (statusWord s).getLsbD 0 = s.busy ∧ (statusWord s).getLsbD 1 = s.tv
      ∧ (statusWord s).getLsbD 2 = s.ovr ∧ (statusWord s).getLsbD 3 = false
      ∧ (statusWord s).extractLsb' 4 4 = s.err.code ∧ (statusWord s).extractLsb' 8 56 = 0
      ∧ s.err.code.toNat ≤ 5)
    ∧ ErrCode.code .ok = 0 ∧ ErrCode.code .illegalOp = 1 ∧ ErrCode.code .notBuilt = 2
    ∧ ErrCode.code .kRange = 3 ∧ ErrCode.code .badIndex = 4 ∧ ErrCode.code .buildInconsistent = 5

/-- R50, R20: at whatever BASE the window stands, the host address BASE + off is offset off of the window, and register
r stands at offset 8r. `BASE` is an uninterpreted constant (log 12). -/
def Obligations.WindowStandsAtBase : Prop :=
  (∀ off < 0x40, windowOffset (Config.base + BitVec.ofNat 64 off) = off)
    ∧ ∀ r : Reg, r.offset = 8 * r.number ∧ regAt r.offset = some r

/-- R31: a host write of `v` to CMD is dropped while BUSY = 1, and otherwise accepted, with exactly the listed
changes. -/
def Obligations.CommandWriteIsAcceptedOrDropped : Prop :=
  ∀ (s : State) (v : Word) (rest : List Input), s.inputs = .host (.write 0x10 8 v) :: rest →
    (s.busy = true → step s = .next { s with ovr := true, inputs := rest, reply := .written })
    ∧ (s.busy = false → step s = .next { s with
        lop := v.setWidth 8
        lrsv := decide (v.toNat / 256 ≠ 0)
        la := s.opa
        lb := s.opb
        ovr := false
        tv := if v = 0x0000000000000001 then false else s.tv
        busy := true
        inputs := rest
        reply := .written })

/-! The Engine's step (60_exceptions.md R243). -/

/-- R243: while BUSY = 1 the Engine's turn is the completion of the command the latches decode to. Its turn is the next
entry of `inputs`, or comes when none is left (log 1, log 2: the model's schedule). -/
def Obligations.EngineTurnRunsTheDecodedCommand : Prop :=
  ∀ (s : State) (i : Instr), s.busy = true → decodeLatched s.lop s.lrsv = .ok i →
    (s.inputs = [] → step s = exec i s)
    ∧ ∀ rest, s.inputs = .engine :: rest → step s = exec i { s with inputs := rest }

/-- R243, R255: while BUSY = 0 the Engine takes no step and PTE keeps all state (log 3: its turn passes). -/
def Obligations.IdleEngineKeepsAllState : Prop :=
  ∀ s : State, s.busy = false →
    (s.inputs = [] → step s = .next s) ∧ ∀ rest, s.inputs = .engine :: rest → step s = .next { s with inputs := rest }

/-- R31, R76, R243: a command issued to an idle PTE and then completed runs on the operands latched at its acceptance;
so does the command `withFetchWord` places (log 15). -/
def Obligations.IssuedCommandRunsOnLatchedOperands : Prop :=
  ∀ (s : State) (i : Instr) (rest : List Input), s.busy = false →
    (s.inputs = .host (.write 0x10 8 (encode i)) :: .engine :: rest →
      run 2 s = exec i { s with
        lop := opcode i, lrsv := false, la := s.opa, lb := s.opb, ovr := false,
        tv := if i = .build then false else s.tv, busy := true, inputs := rest, reply := .written })
    ∧ step (s.withFetchWord 64 (encode i).toNat) = exec i { s with
        lop := opcode i, lrsv := false, la := s.opa, lb := s.opb, ovr := false,
        tv := if i = .build then false else s.tv, busy := true }

/-- R75: every word that is not the word of a command is accepted, completes with ILLEGAL_OP, and changes neither
RESULT nor TMEM nor TV; 227 OPCODE values are unassigned. -/
def Obligations.IllegalWordCompletesWithIllegalOp : Prop :=
  (∀ (s : State) (v : Word) (rest : List Input), s.busy = false → (∀ i, v ≠ encode i) →
      s.inputs = .host (.write 0x10 8 v) :: .engine :: rest →
      ∃ lop lrsv, run 2 s = .next { s with
        lop := lop, lrsv := lrsv, la := s.opa, lb := s.opb, ovr := false,
        err := .illegalOp, busy := false, inputs := rest, reply := .written })
    ∧ ((List.range 256).filter fun n => (decodeLatched (BitVec.ofNat 8 n) false).toOption.isNone).length = 227

/-! Control and table builder (41_table_builder.md). -/

/-- R120: the command word of NOP is 0; NOP completes with ERR = OK and changes nothing else. -/
def Obligations.NopCompletesAndClearsErr : Prop :=
  encode .nop = 0x0000000000000000 ∧ ∀ s : State, exec .nop s = .next { s with err := .ok, busy := false }

/-- R121 to R127, R129: BUILD completes whatever TV is, sets TV, and leaves every table with the stated contents, each
entry below W. -/
def Obligations.BuildConstructsTheTables : Prop :=
  ∀ s : State, ∃ m : Memory,
    exec .build s = .next { s with tmem := m, tv := true, err := .ok, busy := false }
    ∧ (∀ x < 16, ∀ y < 16,
        (chunkPdep x y).toNat < 16 ∧ (chunkPext x y).toNat < 16
        ∧ m.read (0x00000 + 16 * x + y) = some ((chunkPdep x y).setWidth 8)
        ∧ m.read (0x00100 + 16 * x + y) = some ((chunkPext x y).setWidth 8)
        ∧ m.read (0x00200 + 16 * y + x) = some ((chunkPdep x y).setWidth 8)
        ∧ m.read (0x00300 + 16 * y + x) = some ((chunkPext x y).setWidth 8)
        ∧ m.read (0x00500 + 16 * x + y) = some ((chunkPdep x y).setWidth 8)
        ∧ m.read (0x00600 + 16 * x + y) = some ((chunkPext x y).setWidth 8))
    ∧ (∀ x < 256, ∀ y < 256,
        (chunkPdep x y).toNat < 256 ∧ (chunkPext x y).toNat < 256
        ∧ m.read (0x10000 + 256 * x + y) = some ((chunkPdep x y).setWidth 8)
        ∧ m.read (0x20000 + 256 * x + y) = some ((chunkPext x y).setWidth 8)
        ∧ m.read (0x30000 + 256 * y + x) = some ((chunkPdep x y).setWidth 8)
        ∧ m.read (0x40000 + 256 * y + x) = some ((chunkPext x y).setWidth 8))
    ∧ (∀ y < 16, m.read (0x00400 + y) = some (BitVec.ofNat 8 (popcount (BitVec.ofNat 64 y)))
        ∧ popcount (BitVec.ofNat 64 y) ≤ 4)
    ∧ (∀ y < 256, m.read (0x00700 + y) = some (BitVec.ofNat 8 (popcount (BitVec.ofNat 64 y)))
        ∧ popcount (BitVec.ofNat 64 y) ≤ 8)

/-- R128, R130: BUILD leaves exactly what the MemWrites of its pseudocode leave, performed one after another in the
order of its loops on a canonical TMEM, and its self-check does not fire. -/
def Obligations.BuildLeavesWhatItsMemWritesLeave : Prop :=
  ∀ s : State, Memory.wf s.tmem → OnlyBacked s.tmem →
    exec .build s = .next { s with tmem := buildByWrites s.tmem, tv := true, err := .ok, busy := false }

/-- R131: a BUILD accepted while TV = 1 shows TV = 0 until its completion, leaves TMEM unchanged and ends with
TV = 1. -/
def Obligations.RepeatedBuildLeavesTheTablesUnchanged : Prop :=
  ∀ (s : State) (rest : List Input), Inv s → s.busy = false → s.tv = true →
    s.inputs = .host (.write 0x10 8 (encode .build)) :: .engine :: rest →
    (∃ u, step s = .next u ∧ u.tv = false ∧ u.busy = true ∧ u.tmem = s.tmem)
    ∧ run 2 s = .next { s with
        lop := 0x01, lrsv := false, la := s.opa, lb := s.opb, ovr := false,
        err := .ok, inputs := rest, reply := .written }

/-- R132: the OPCODE of TBLRD is 0x02. TBLRD answers NOT_BUILT while TV = 0, else BAD_INDEX for an offset without storage, else the byte,
zero-extended. -/
def Obligations.TblrdReadsOneByteOfTmem : Prop :=
  encode .tblrd = 0x0000000000000002 ∧ ∀ s : State,
    (s.tv = false → exec .tblrd s = .next { s with err := .notBuilt, busy := false })
    ∧ (s.tv = true →
      0x50000 ≤ s.la.toNat ∨ (0x00410 ≤ s.la.toNat ∧ s.la.toNat ≤ 0x004FF)
        ∨ (0x00800 ≤ s.la.toNat ∧ s.la.toNat ≤ 0x0FFFF) →
      exec .tblrd s = .next { s with err := .badIndex, busy := false })
    ∧ (s.tv = true →
      ¬(0x50000 ≤ s.la.toNat ∨ (0x00410 ≤ s.la.toNat ∧ s.la.toNat ≤ 0x004FF)
        ∨ (0x00800 ≤ s.la.toNat ∧ s.la.toNat ≤ 0x0FFFF)) →
      ∀ b : Byte, s.tmem.read s.la.toNat = some b →
      exec .tblrd s = .next { s with result := b.setWidth 64, err := .ok, busy := false })

/-- R133: the properties of the tables that TBLRD makes observable while TV = 1. -/
def Obligations.TablesHaveTheObservableProperties : Prop :=
  ∀ s : State, Inv s → s.tv = true →
    (∀ x < 16, ∀ y < 16,
      s.tmem.read (0x00200 + 16 * y + x) = s.tmem.read (0x00000 + 16 * x + y)
      ∧ s.tmem.read (0x00300 + 16 * y + x) = s.tmem.read (0x00100 + 16 * x + y)
      ∧ s.tmem.read (0x00500 + 16 * x + y) = s.tmem.read (0x00000 + 16 * x + y)
      ∧ s.tmem.read (0x00600 + 16 * x + y) = s.tmem.read (0x00100 + 16 * x + y)
      ∧ s.tmem.read (0x10000 + 256 * x + y) = s.tmem.read (0x00000 + 16 * x + y)
      ∧ s.tmem.read (0x20000 + 256 * x + y) = s.tmem.read (0x00100 + 16 * x + y)
      ∧ (∃ p, s.tmem.read (0x00000 + 16 * x + y) = some p ∧ p.toNat < 16)
      ∧ ∃ q, s.tmem.read (0x00100 + 16 * x + y) = some q ∧ q.toNat < 16)
    ∧ (∀ x < 256, ∀ y < 256,
      s.tmem.read (0x30000 + 256 * y + x) = s.tmem.read (0x10000 + 256 * x + y)
      ∧ s.tmem.read (0x40000 + 256 * y + x) = s.tmem.read (0x20000 + 256 * x + y)
      ∧ (∃ p, s.tmem.read (0x10000 + 256 * x + y) = some p ∧ p.toNat < 256)
      ∧ ∃ q, s.tmem.read (0x20000 + 256 * x + y) = some q ∧ q.toNat < 256)
    ∧ (∀ y < 16, s.tmem.read (0x00400 + y) = s.tmem.read (0x00700 + y)
      ∧ ∃ c, s.tmem.read (0x00400 + y) = some c ∧ c.toNat ≤ 4)
    ∧ ∀ y < 256, ∃ c, s.tmem.read (0x00700 + y) = some c ∧ c.toNat ≤ 8

/-! TMEM (20_memory.md). -/

/-- R52: a multi-byte read assembles its bytes little-endian, and a multi-byte write stores each byte of its value and
nothing else. -/
def Obligations.TmemAccessesAreLittleEndian : Prop :=
  (∀ (m : Memory) (a n : Nat) (f : Nat → Byte), (∀ i < n, readByte m (a + i) = .ok (f i)) →
      ∃ v, memRead m a n = .ok v ∧ ∀ i < n, v.extractLsb' (8 * i) 8 = f i)
    ∧ ∀ (m : Memory) (a n : Nat) (v : BitVec (8 * n)) (b : Nat),
      (memWrite m a n v).read b = if a ≤ b ∧ b < a + n then some (v.extractLsb' (8 * (b - a)) 8) else m.read b

/-- R54: the holes; TBLRD of a hole completes with BAD_INDEX; no engine reads a hole. -/
def Obligations.NoEngineReadsAHole : Prop :=
  (∀ a, tmemHole a = true ↔
      (0x00410 ≤ a ∧ a ≤ 0x004FF) ∨ (0x00800 ≤ a ∧ a ≤ 0x0FFFF) ∨ 0x50000 ≤ a)
    ∧ (∀ s : State, s.tv = true → tmemHole s.la.toNat = true →
      exec .tblrd s = .next { s with err := .badIndex, busy := false })
    ∧ ∀ (i : Instr) (s : State) (a : Nat), exec i s ≠ .fault (.tmemHole a)

/-- R55: TMEM has 263,952 bytes of storage, the sum of its tables, and they are the offsets that are no hole. -/
def Obligations.TmemHasTheStatedSize : Prop :=
  tableImage.length = 263952 ∧ (Table.all.map Table.size).sum = 263952
    ∧ ([Table.tp16, .tx16, .tpi16, .txi16, .p16].map Table.size).sum = 1040
    ∧ ([Table.lp, .lx].map Table.size).sum = 512 ∧ Table.size .p256 = 256
    ∧ ([Table.tp256, .tx256, .tpi256, .txi256].map Table.size).sum = 262144
    ∧ ∀ a, tmemHole a = false ↔ (tableImage.read a).isSome = true

/-! Table-driven PDEP and PEXT, vector shuffle, closed form (files 42 to 45). -/

/-- R152: while TV = 1 and TMEM holds the tables, each of the eight commands completes with `pdep(a, mask)`; while
TV = 0 each completes with NOT_BUILT and RESULT unchanged. -/
def Obligations.TablePdepCommandsDeposit : Prop :=
  ∀ i ∈ [Instr.pdepT16, .pdepT16Pt, .pdepT16Inv, .pdepT16InvPt, .pdepT256, .pdepT256Pt, .pdepT256Inv, .pdepT256InvPt],
    ∀ s : State,
      (s.tv = true → TablesHold s.tmem →
        exec i s = .next { s with result := pdep s.la s.lb, err := .ok, busy := false })
      ∧ (s.tv = false → exec i s = .next { s with err := .notBuilt, busy := false })

/-- R172: while TV = 1 and TMEM holds the tables, each of the eight commands completes with `pext(a, mask)`; while
TV = 0 each completes with NOT_BUILT and RESULT unchanged. -/
def Obligations.TablePextCommandsExtract : Prop :=
  ∀ i ∈ [Instr.pextT16, .pextT16Pt, .pextT16Inv, .pextT16InvPt, .pextT256, .pextT256Pt, .pextT256Inv, .pextT256InvPt],
    ∀ s : State,
      (s.tv = true → TablesHold s.tmem →
        exec i s = .next { s with result := pext s.la s.lb, err := .ok, busy := false })
      ∧ (s.tv = false → exec i s = .next { s with err := .notBuilt, busy := false })

/-- R193, R194, R195: while TV = 1 and TMEM holds the tables, PDEP.VS and PEXT.VS complete with the Oracle's results. -/
def Obligations.VectorShuffleCommandsMatchTheOracle : Prop :=
  ∀ s : State,
    (s.tv = true → TablesHold s.tmem →
      exec .pdepVs s = .next { s with result := pdep s.la s.lb, err := .ok, busy := false }
      ∧ exec .pextVs s = .next { s with result := pext s.la s.lb, err := .ok, busy := false })
    ∧ (s.tv = false →
      exec .pdepVs s = .next { s with err := .notBuilt, busy := false }
      ∧ exec .pextVs s = .next { s with err := .notBuilt, busy := false })

/-- R211: PEXT.CF returns `pext(x, mask)`, whatever TV and TMEM are. -/
def Obligations.ClosedFormExtracts : Prop :=
  ∀ s : State, exec .pextCf s = .next { s with result := pext s.la s.lb, err := .ok, busy := false }

/-- R161, R162, R181, R182: while the tables hold, neither the table orientation nor the popcount source changes what a
walk answers. -/
def Obligations.OrientationAndPopSourceDoNotMatter : Prop :=
  ∀ (m : Memory) (w : ChunkWidth) (o o' : Orientation) (p p' : PopSource) (a mask : Word), TablesHold m →
    tablePdep w o p m a mask = tablePdep w o' p' m a mask
    ∧ tablePext w o p m a mask = tablePext w o' p' m a mask

/-- R153 to R160, R173 to R180, R193, R194 ("TMEM reads"), R244: a command's completion depends on no byte of TMEM
outside the tables it reads. -/
def Obligations.CommandsReadOnlyTheirTables : Prop :=
  ∀ (i : Instr) (s t : State) (m : Memory), i ≠ .build →
    (∀ u ∈ tablesRead i, ∀ o < u.size, m.read (u.base + o) = s.tmem.read (u.base + o)) →
    exec i s = .next t → exec i { s with tmem := m } = .next { t with tmem := m }

/-- R190, R192: the byte shuffle and the mask nibble vectors, byte by byte. -/
def Obligations.ShuffleAndNibbleVectorsAreAsStated : Prop :=
  (∀ (v x : Lane) (j : Nat), j < 16 →
      laneByte (shuffle v x) j
        = if (laneByte x j).getLsbD 7 then 0 else laneByte v ((laneByte x j).extractLsb' 0 4).toNat)
    ∧ ∀ (mask : Word) (i : Nat), i < 16 →
      laneByte (loNibbles mask) i = (if i < 8 then (mask.extractLsb' (8 * i) 4).setWidth 8 else 0)
      ∧ laneByte (hiNibbles mask) i = if i < 8 then (mask.extractLsb' (8 * i + 4) 4).setWidth 8 else 0

/-! Oracle (40_reference.md). -/

/-- R105, R106, R107: the Oracle commands complete with their reference functions, whatever TV and TMEM are. -/
def Obligations.OracleCommandsReturnTheReferenceFunctions : Prop :=
  ∀ s : State,
    exec .pdepRef s = .next { s with result := pdep s.la s.lb, err := .ok, busy := false }
    ∧ exec .pextRef s = .next { s with result := pext s.la s.lb, err := .ok, busy := false }
    ∧ exec .popcntRef s = .next { s with result := BitVec.ofNat 64 (popcount s.la), err := .ok, busy := false }

/-- R100: popcount is the number of set bits, at any width; at most 64 for a word. -/
def Obligations.PopcountIsTheNumberOfSetBits : Prop :=
  (∀ (w : Nat) (v : BitVec w), popcount v = ((Finset.range w).filter fun i => v.getLsbD i = true).card)
    ∧ ∀ v : Word, popcount v ≤ 64

/-- R101: bit `i` of `pdep(a, m)` is the bit of `a` whose index is the number of mask bits below `i`, where the mask has
a 1, and 0 elsewhere; on chunks the result is below W. -/
def Obligations.PdepScattersTheLowBits : Prop :=
  (∀ (a m : Word) (i : Nat), i < 64 →
      (pdep a m).getLsbD i = (m.getLsbD i && a.getLsbD (popcount (m.setWidth i))))
    ∧ ∀ (w : ChunkWidth) (a m : Word), a.toNat < w.values → m.toNat < w.values → (pdep a m).toNat < w.values

/-- R102: the bit of `a` at each mask position goes to the position counted by the mask bits below it, and the bits at
or above popcount(m) are 0. -/
def Obligations.PextGathersTheMaskedBits : Prop :=
  ∀ a m : Word,
    (∀ i < 64, m.getLsbD i = true → (pext a m).getLsbD (popcount (m.setWidth i)) = a.getLsbD i)
    ∧ ∀ j, popcount m ≤ j → (pext a m).getLsbD j = false

/-- R103: select1 is the sentinel exactly when `x` has at most `k` set bits, else the unique set bit with `k` set bits
below it. -/
def Obligations.Select1IsTheSetBitOfRankK : Prop :=
  ∀ (x : Word) (k : Nat), k < 64 →
    (popcount x ≤ k → select1 x k = 0xFFFFFFFFFFFFFFFF)
    ∧ (k < popcount x → ∃ i < 64, x.getLsbD i = true ∧ popcount (x.setWidth i) = k ∧ select1 x k = BitVec.ofNat 64 i
        ∧ ∀ j < 64, x.getLsbD j = true → popcount (x.setWidth j) = k → j = i)

/-- R104: bsf of a nonzero word is its lowest set bit. -/
def Obligations.BsfIsTheLowestSetBit : Prop :=
  ∀ v : Word, v ≠ 0 → ∃ i < 64, bsf v = some i ∧ v.getLsbD i = true ∧ ∀ j < i, v.getLsbD j = false

/-- R108: the laws of the reference functions. -/
def Obligations.ReferenceFunctionsObeyTheirLaws : Prop :=
  ∀ a mask : Word,
    pdep a 0 = 0 ∧ pext a 0 = 0
    ∧ pdep a 0xFFFFFFFFFFFFFFFF = a ∧ pext a 0xFFFFFFFFFFFFFFFF = a
    ∧ pext (pdep a mask) mask
      = a &&& (if popcount mask < 64 then BitVec.ofNat 64 (2 ^ popcount mask - 1) else 0xFFFFFFFFFFFFFFFF)
    ∧ ∀ k < 64, select1 0 k = 0xFFFFFFFFFFFFFFFF

/-- R109: the chunk decomposition, with `s_i` the popcount of the mask below chunk `i`. -/
def Obligations.ReferenceFunctionsDecomposeByChunks : Prop :=
  ∀ (w : ChunkWidth) (a mask : Word),
    (∀ i < w.chunks,
      chunkOf w (pdep a mask) i
        = (chunkPdep ((a >>> popcount (mask.setWidth (w.bits * i))).toNat % w.values) (chunkOf w mask i)).toNat)
    ∧ pext a mask
      = (List.range w.chunks).foldl (fun r i =>
          r ||| (chunkPext (chunkOf w a i) (chunkOf w mask i) <<< popcount (mask.setWidth (w.bits * i)))) 0

/-! Select1 (46_select1.md). -/

/-- R225: for a rank in [0, 63] all four select1 commands complete with `select1(x, k)`, whatever TV and TMEM are. -/
def Obligations.Select1CommandsAgree : Prop :=
  ∀ i ∈ [Instr.sel1Naive, .sel1Clear, .sel1Bsearch, .sel1Pdep], ∀ s : State,
    0 ≤ s.lb.toInt → s.lb.toInt ≤ 63 →
    exec i s = .next { s with result := select1 s.la s.lb.toInt.toNat, err := .ok, busy := false }

/-- R220: a rank outside [0, 63], read as a signed 64-bit number, completes with K_RANGE and RESULT unchanged. -/
def Obligations.RankOutOfRangeCompletesWithKRange : Prop :=
  ∀ i ∈ [Instr.sel1Naive, .sel1Clear, .sel1Bsearch, .sel1Pdep], ∀ s : State,
    s.lb.toInt < 0 ∨ 63 < s.lb.toInt → exec i s = .next { s with err := .kRange, busy := false }

/-! Errors (60_exceptions.md). -/

/-- R244: the table-reading commands complete with NOT_BUILT when TV = 0 and read no TMEM; every other command runs
whatever TV and TMEM are. -/
def Obligations.OnlyTableReadingCommandsNeedTheTables : Prop :=
  (∀ i ∈ [Instr.tblrd, .pdepT16, .pdepT16Pt, .pdepT16Inv, .pdepT16InvPt, .pdepT256, .pdepT256Pt, .pdepT256Inv,
      .pdepT256InvPt, .pextT16, .pextT16Pt, .pextT16Inv, .pextT16InvPt, .pextT256, .pextT256Pt, .pextT256Inv,
      .pextT256InvPt, .pdepVs, .pextVs],
      ∀ s : State, s.tv = false → exec i s = .next { s with err := .notBuilt, busy := false })
    ∧ (∀ i ∈ [Instr.nop, .pextCf, .pdepRef, .pextRef, .popcntRef, .sel1Naive, .sel1Clear, .sel1Bsearch, .sel1Pdep],
      ∀ (s t : State) (b : Bool) (m : Memory), exec i s = .next t →
        exec i { s with tv := b, tmem := m } = .next { t with tv := b, tmem := m })
    ∧ ∀ (s t : State) (b : Bool) (m : Memory), exec .build s = .next t → exec .build { s with tv := b, tmem := m } = .next t

/-- R242, R243: ERR after a completion is the first error condition in the stated order that holds, and OK when none
does. BUILD_INCONSISTENT never does (R130). -/
def Obligations.CompletionErrIsTheFirstInPriority : Prop :=
  ∀ s t : State, completesNext s = true → step s = .next t →
    t.busy = false
    ∧ t.err = match decodeLatched s.lop s.lrsv with
      | .error _ => .illegalOp
      | .ok i =>
        if readsTables i = true ∧ s.tv = false then .notBuilt
        else if i ∈ [Instr.sel1Naive, .sel1Clear, .sel1Bsearch, .sel1Pdep] ∧ (s.lb.toInt < 0 ∨ 63 < s.lb.toInt)
          then .kRange
        else if i = .tblrd ∧ tmemHole s.la.toNat = true then .badIndex
        else .ok

/-- R241: a completion with ERR ≠ 0 has no effect beyond ERR (and the end of BUSY), and a dropped CMD write sets OVR
and leaves ERR alone. The exception R241 makes for BUILD_INCONSISTENT is empty, since R130 never reports it. -/
def Obligations.ErrorsHaveNoSideEffect : Prop :=
  (∀ (i : Instr) (s t : State), exec i s = .next t → t.err ≠ .ok → t = { s with err := t.err, busy := false })
    ∧ ∀ s t : State, dropsNext s → step s = .next t →
      t = { s with ovr := true, inputs := t.inputs, reply := t.reply }

/-! Frames (10_state.md R24, R26, R33). -/

/-- R21, R22, R24, R26, R33, R51: what the completion of any command but BUILD leaves unchanged. Every byte of TMEM
reads as before; RESULT changes only with ERR = OK and never for NOP. -/
def Obligations.CommandFrame : Prop :=
  ∀ (i : Instr) (s t : State), i ≠ .build → exec i s = .next t →
    t.opa = s.opa ∧ t.opb = s.opb ∧ t.tv = s.tv ∧ t.ovr = s.ovr
    ∧ t.lop = s.lop ∧ t.lrsv = s.lrsv ∧ t.la = s.la ∧ t.lb = s.lb
    ∧ t.inputs = s.inputs ∧ t.reply = s.reply ∧ t.busy = false
    ∧ (t.err ≠ .ok → t.result = s.result) ∧ (i = .nop → t.result = s.result)
    ∧ ∀ a, t.tmem.read a = s.tmem.read a

/-- R24, R26, R33, R51, R128: what the completion of BUILD leaves unchanged. Every offset that no MemWrite of its
pseudocode addresses reads as before. -/
def Obligations.BuildFrame : Prop :=
  ∀ s t : State, exec .build s = .next t →
    t.opa = s.opa ∧ t.opb = s.opb ∧ t.result = s.result ∧ t.ovr = s.ovr
    ∧ t.lop = s.lop ∧ t.lrsv = s.lrsv ∧ t.la = s.la ∧ t.lb = s.lb
    ∧ t.inputs = s.inputs ∧ t.reply = s.reply ∧ t.busy = false
    ∧ (OnlyBacked s.tmem → ∀ a, (∀ c ∈ buildWrites, a ≠ c.1) → t.tmem.read a = s.tmem.read a)

/-- R26: the only events that change a field of STATUS, and what they make of it. -/
def Obligations.OnlyTheListedEventsChangeStatus : Prop :=
  ∀ s t : State, step s = .next t →
    (t.busy ≠ s.busy → ((∃ v, acceptsNext s v) ∧ t.busy = true) ∨ (completesNext s = true ∧ t.busy = false)
      ∨ (resetsNext s ∧ t.busy = false))
    ∧ (t.tv ≠ s.tv → (acceptsNext s (encode .build) ∧ t.tv = false)
      ∨ (completesNext s = true ∧ decodeLatched s.lop s.lrsv = .ok .build ∧ t.err = .ok ∧ t.tv = true)
      ∨ (resetsNext s ∧ t.tv = false))
    ∧ (t.ovr ≠ s.ovr → (dropsNext s ∧ t.ovr = true) ∨ ((∃ v, acceptsNext s v) ∧ t.ovr = false)
      ∨ (resetsNext s ∧ t.ovr = false))
    ∧ (t.err ≠ s.err → completesNext s = true ∨ (resetsNext s ∧ t.err = .ok))
    ∧ t.err.code.toNat ≤ 5

/-- R21, R22, R24, R32, R33, R270, R271: the only events that change an operand register, RESULT, TMEM or a latch. The
reset input is one of them for each: the operand registers and RESULT then become 0; what TMEM and the latches then hold
is unspecified, and the model's values there (log 5, log 6) are not stated. -/
def Obligations.OnlyTheListedEventsChangeData : Prop :=
  ∀ s t : State, step s = .next t →
    (t.opa ≠ s.opa → writesNext s 0x00 t.opa ∨ (resetsNext s ∧ t.opa = 0))
    ∧ (t.opb ≠ s.opb → writesNext s 0x08 t.opb ∨ (resetsNext s ∧ t.opb = 0))
    ∧ (t.result ≠ s.result → (completesNext s = true ∧ t.err = .ok
        ∧ ∃ i, decodeLatched s.lop s.lrsv = .ok i ∧ i ≠ .nop ∧ i ≠ .build)
      ∨ (resetsNext s ∧ t.result = 0))
    ∧ (t.tmem ≠ s.tmem → (completesNext s = true ∧ decodeLatched s.lop s.lrsv = .ok .build) ∨ resetsNext s)
    ∧ (t.lop ≠ s.lop ∨ t.lrsv ≠ s.lrsv ∨ t.la ≠ s.la ∨ t.lb ≠ s.lb → (∃ v, acceptsNext s v) ∨ resetsNext s)

/-! Invariants and whole-machine rules. -/

/-- R34, R271: the invariant holds after reset. -/
def Obligations.ResetStateIsSound : Prop := Inv State.reset

/-- R129, R131, R54: every step keeps the invariant: TMEM stays canonical and without bytes in holes, it holds the
tables while TV = 1, and TV = 0 while a BUILD is in flight. -/
def Obligations.EveryStepKeepsTheInvariant : Prop :=
  ∀ s t : State, Inv s → step s = .next t → Inv t

/-- R243: in a sound state every command completes. -/
def Obligations.EveryCommandCompletesInSoundStates : Prop :=
  ∀ (i : Instr) (s : State), (s.tv = true → TablesHold s.tmem) → ∃ t, exec i s = .next t ∧ t.busy = false

/-- R56, R245, R271: in a sound state nothing but a rejected host access stops the machine. -/
def Obligations.OnlyRejectedAccessesStopTheMachine : Prop :=
  ∀ s : State, Inv s →
    (∃ t, step s = .next t)
    ∨ (step s = .fault (.hostAccessRejected Config.busError)
      ∧ ∃ h rest, s.inputs = .host h :: rest ∧ h.wellFormed = false)

/-- R271, R34: no run shows the host the TMEM contents and the latches that reset leaves: from an idle state with
TV = 0, runs that differ only in them look alike. -/
def Obligations.HiddenResetContentsAreUnobservable : Prop :=
  ∀ (n : Nat) (s : State) (m : Memory) (lop : BitVec 8) (lrsv : Bool) (la lb : Word), s.busy = false → s.tv = false →
    observed (run n { s with tmem := m, lop := lop, lrsv := lrsv, la := la, lb := lb }) = observed (run n s)

/-- R287: operand writes while BUSY = 1 do not reach the command in flight. What its completion would make of the state
without them is what it makes of the state with them, OPA and OPB apart, which hold the last values written (and `reply`,
the answer to the last write: log 4); and it stops with them exactly as without them. -/
def Obligations.OperandWritesDoNotReachTheCommandInFlight : Prop :=
  ∀ (s : State) (i : Instr) (ws : List (Bool × Word)) (rest : List Input),
    s.busy = true → decodeLatched s.lop s.lrsv = .ok i →
    s.inputs = ws.map operandWrite ++ .engine :: rest →
    (∀ t, exec i { s with inputs := rest } = .next t →
      run (ws.length + 1) s = .next { t with
        opa := (lastOperands (s.opa, s.opb) ws).1
        opb := (lastOperands (s.opa, s.opb) ws).2
        reply := if ws.isEmpty then s.reply else .written })
    ∧ ∀ f, exec i { s with inputs := rest } = .fault f → run (ws.length + 1) s = .fault f

/-- R243, R292: a command in flight completes once the host's accesses are served, whatever they are. That
the Engine's turn comes then is the model's schedule (log 1, log 2). -/
def Obligations.CommandInFlightCompletes : Prop :=
  ∀ (s : State) (hs : List HostAccess), Inv s → s.busy = true → (∀ h ∈ hs, h.wellFormed = true) →
    s.inputs = hs.map Input.host → ∃ t, run (hs.length + 1) s = .next t ∧ t.busy = false ∧ t.inputs = []

/-- R285, R286, U14 (program P5): both orders of a completion and the next CMD write, on any idle state. -/
def Obligations.BackToBackCommandsHaveBothOutcomes : Prop :=
  ∀ (s : State) (rest : List Input), s.busy = false →
    (s.inputs = .host (hostIssue .pdepRef) :: .engine :: .host (hostIssue .pextRef) :: .engine
        :: .host (hostLd .result) :: rest →
      ∃ t, run 5 s = .next t ∧ t.reply = .data (pext s.opa s.opb) ∧ t.ovr = false ∧ t.busy = false ∧ t.err = .ok)
    ∧ (s.inputs = .host (hostIssue .pdepRef) :: .host (hostIssue .pextRef) :: .engine
        :: .host (hostLd .result) :: rest →
      ∃ t, run 4 s = .next t ∧ t.reply = .data (pdep s.opa s.opb) ∧ t.ovr = true ∧ t.busy = false ∧ t.err = .ok)

/-- R79, R62, R19: `CALL` of any PDEP or PEXT command, with any number of polls that find BUSY = 1, ends with the Oracle's
value read from RESULT and ERR = OK, in every sound idle state with TV = 1. -/
def Obligations.CallReturnsTheOracleValue : Prop :=
  ∀ (s : State) (a b : Word) (n : Nat) (rest : List Input) (i : Instr), Inv s → s.busy = false → s.tv = true →
    s.inputs = callMoves i a b n ++ rest →
    (i ∈ [Instr.pdepRef, .pdepT16, .pdepT16Pt, .pdepT16Inv, .pdepT16InvPt, .pdepT256, .pdepT256Pt, .pdepT256Inv,
        .pdepT256InvPt, .pdepVs] →
      ∃ t, run (n + 6) s = .next t ∧ t.reply = .data (pdep a b) ∧ t.err = .ok ∧ t.busy = false ∧ t.tv = true
        ∧ t.ovr = false ∧ t.inputs = rest)
    ∧ (i ∈ [Instr.pextRef, .pextT16, .pextT16Pt, .pextT16Inv, .pextT16InvPt, .pextT256, .pextT256Pt, .pextT256Inv,
        .pextT256InvPt, .pextVs, .pextCf] →
      ∃ t, run (n + 6) s = .next t ∧ t.reply = .data (pext a b) ∧ t.err = .ok ∧ t.busy = false ∧ t.tv = true
        ∧ t.ovr = false ∧ t.inputs = rest)
end

