-- ==== Sys2Proof/Laws/Memory.lean ====
section
/-! SUPPORT. The laws of memory: read after write, the canonical form kept by every operation, and equal reads make
equal memories. -/

namespace Sys2Proof.Machine

@[simp] theorem Memory.read_nil (a : Nat) : Memory.read [] a = none := rfl

theorem Memory.read_cons (c : Host.Cell) (m : Memory) (a : Nat) :
    Memory.read (c :: m) a = if a = c.1 then some c.2 else Memory.read m a := rfl

/-- A read gives the value just written at its address, and what it gave before at every other. -/
theorem Memory.read_write (m : Memory) (a b : Nat) (v : Byte) :
    Memory.read (Memory.write m a v) b = if b = a then some v else Memory.read m b := by
  induction m with
  | nil => rfl
  | cons c m ih =>
    obtain ⟨k, w⟩ := c
    simp only [Memory.write]
    split
    · simp only [Memory.read_cons]
    · split
      · rename_i h; subst h
        simp only [Memory.read_cons]
        split <;> rfl
      · simp only [Memory.read_cons, ih]
        rename_i h
        split
        · rename_i hb; subst hb
          exact (if_neg (fun hk => h hk.symm)).symm
        · rfl

@[simp] theorem Memory.read_write_same (m : Memory) (a : Nat) (v : Byte) :
    Memory.read (Memory.write m a v) a = some v := by
  simp [Memory.read_write]

theorem Memory.read_write_other (m : Memory) {a b : Nat} (v : Byte) (h : b ≠ a) :
    Memory.read (Memory.write m a v) b = Memory.read m b := by
  simp [Memory.read_write, h]

/-- Only the written address can be new. -/
theorem Memory.mem_write {m : Memory} {a : Nat} {v : Byte} {c : Host.Cell} (h : c ∈ Memory.write m a v) :
    c = (a, v) ∨ c ∈ m := by
  induction m with
  | nil => exact .inl (by simpa [Memory.write] using h)
  | cons d m ih =>
    obtain ⟨k, w⟩ := d
    simp only [Memory.write] at h
    split at h
    · simpa using h
    · split at h
      · rcases List.mem_cons.mp h with h | h
        · exact .inl h
        · exact .inr (List.mem_cons_of_mem _ h)
      · rcases List.mem_cons.mp h with h | h
        · exact .inr (h ▸ List.mem_cons_self)
        · exact (ih h).imp id (List.mem_cons_of_mem _)

/-- A write keeps the canonical form. -/
theorem Memory.write_wf {m : Memory} (a : Nat) (v : Byte) (h : Memory.wf m) : Memory.wf (Memory.write m a v) := by
  induction m with
  | nil => simp [Memory.write]
  | cons d m ih =>
    obtain ⟨k, w⟩ := d
    obtain ⟨hk, hm⟩ := List.pairwise_cons.mp h
    simp only [Memory.write]
    split
    · rename_i hlt
      refine List.pairwise_cons.mpr ⟨fun c hc => ?_, h⟩
      rcases List.mem_cons.mp hc with rfl | hc
      · exact hlt
      · exact Nat.lt_trans hlt (hk c hc)
    · split
      · rename_i heq; subst heq
        exact List.pairwise_cons.mpr ⟨hk, hm⟩
      · refine List.pairwise_cons.mpr ⟨fun c hc => ?_, ih hm⟩
        rcases Memory.mem_write hc with rfl | hc
        · show k < a
          omega
        · exact hk c hc

/-- `MemWrite` keeps the canonical form. -/
theorem memWrite_wf {m : Memory} (a n : Nat) (v : BitVec (8 * n)) (h : Memory.wf m) : Memory.wf (memWrite m a n v) := by
  unfold memWrite
  induction List.range n generalizing m with
  | nil => exact h
  | cons i is ih => exact ih (Memory.write_wf _ _ h)

/-- A one-byte `MemWrite` is a write. -/
theorem memWrite_one (m : Memory) (a : Nat) (v : Byte) : memWrite m a 1 v = Memory.write m a v := by
  simp [memWrite]

/-- An address above every listed one reads as nothing. -/
theorem Memory.read_eq_none_of_not_listed {m : Memory} {a : Nat} (h : ∀ c ∈ m, c.1 ≠ a) : Memory.read m a = none := by
  induction m with
  | nil => rfl
  | cons c m ih =>
    rw [Memory.read_cons, if_neg (fun e => h c List.mem_cons_self e.symm)]
    exact ih fun d hd => h d (List.mem_cons_of_mem _ hd)

/-- What is read is listed. -/
theorem Memory.mem_of_read {m : Memory} {a : Nat} {v : Byte} (h : Memory.read m a = some v) : (a, v) ∈ m := by
  induction m with
  | nil => cases h
  | cons c m ih =>
    rw [Memory.read_cons] at h
    split at h
    · rename_i e; cases h; subst e; exact List.mem_cons_self
    · exact List.mem_cons_of_mem _ (ih h)

/-- What a canonical memory lists is read. -/
theorem Memory.read_of_mem {m : Memory} {a : Nat} {v : Byte} (hm : Memory.wf m) (h : (a, v) ∈ m) :
    Memory.read m a = some v := by
  induction m with
  | nil => cases h
  | cons c m ih =>
    obtain ⟨hc, hm⟩ := List.pairwise_cons.mp hm
    rw [Memory.read_cons]
    rcases List.mem_cons.mp h with rfl | h
    · exact if_pos rfl
    · rw [if_neg (fun e => absurd (hc _ h) (by subst e; exact Nat.lt_irrefl _))]
      exact ih hm h

/-- In canonical form, memories that read alike are the same list. -/
theorem Memory.ext_of_wf {m n : Memory} (hm : Memory.wf m) (hn : Memory.wf n)
    (h : ∀ a, Memory.read m a = Memory.read n a) : m = n := by
  have asymm : ∀ c d : Host.Cell, c.1 < d.1 → d.1 < c.1 → c = d := fun c d h1 h2 => absurd h1 (by omega)
  have nodup : ∀ l : Memory, Memory.wf l → l.Nodup := fun l hl =>
    List.Pairwise.imp (fun {c d} (hlt : c.1 < d.1) (e : c = d) => Nat.lt_irrefl d.1 (e ▸ hlt)) hl
  refine List.Perm.eq_of_pairwise (fun c d _ _ => asymm c d) hm hn ?_
  refine (List.perm_ext_iff_of_nodup (nodup m hm) (nodup n hn)).mpr fun c => ?_
  obtain ⟨a, v⟩ := c
  constructor
  · exact fun hc => Memory.mem_of_read (h a ▸ Memory.read_of_mem hm hc)
  · exact fun hc => Memory.mem_of_read ((h a).symm ▸ Memory.read_of_mem hn hc)

/-! One-byte reads of TMEM. -/

/-- Everything `readByte` can answer. -/
theorem readByte_cases (m : Memory) (a : Nat) :
    (tmemHole a = true ∧ readByte m a = .error (.tmemHole a)) ∨
    (tmemHole a = false ∧ ∃ v, m.read a = some v ∧ readByte m a = .ok v) ∨
    (tmemHole a = false ∧ m.read a = none ∧ readByte m a = .error (.tmemUnwritten a)) := by
  unfold readByte
  cases hh : tmemHole a with
  | true => exact .inl ⟨rfl, rfl⟩
  | false =>
    cases hr : m.read a with
    | none => exact .inr (.inr ⟨rfl, rfl, rfl⟩)
    | some v => exact .inr (.inl ⟨rfl, v, rfl, rfl⟩)

theorem readByte_ok {m : Memory} {a : Nat} {v : Byte} (hh : tmemHole a = false) (hr : m.read a = some v) :
    readByte m a = .ok v := by
  simp [readByte, hh, hr]

/-- The offsets with storage (R54). -/
theorem tmemHole_eq_false_iff (a : Nat) : tmemHole a = false ↔
    a < 0x00410 ∨ (0x00500 ≤ a ∧ a < 0x00800) ∨ (0x10000 ≤ a ∧ a < 0x50000) := by
  simp only [tmemHole, Bool.or_eq_false_iff, Bool.and_eq_false_iff, decide_eq_false_iff_not]
  omega

/-- Every table of the map has storage (R53, R54). -/
theorem Table.backed (t : Table) {o : Nat} (h : o < t.size) : tmemHole (t.base + o) = false := by
  rw [tmemHole_eq_false_iff]
  cases t <;> simp only [Table.size] at h <;> simp only [Table.base] <;> omega

/-- Every offset with storage is a byte of a table (R53, R54). -/
theorem Table.of_backed {a : Nat} (h : tmemHole a = false) : ∃ t : Table, ∃ o < t.size, a = t.base + o := by
  rw [tmemHole_eq_false_iff] at h
  have pick : ∀ t : Table, t.base ≤ a → a < t.base + t.size → ∃ t : Table, ∃ o < t.size, a = t.base + o :=
    fun t h1 h2 => ⟨t, a - t.base, by omega, by omega⟩
  by_cases h1 : a < 0x100
  · exact pick .tp16 (by simp [Table.base]) (by simp [Table.base, Table.size]; omega)
  by_cases h2 : a < 0x200
  · exact pick .tx16 (by simp [Table.base]; omega) (by simp [Table.base, Table.size]; omega)
  by_cases h3 : a < 0x300
  · exact pick .tpi16 (by simp [Table.base]; omega) (by simp [Table.base, Table.size]; omega)
  by_cases h4 : a < 0x400
  · exact pick .txi16 (by simp [Table.base]; omega) (by simp [Table.base, Table.size]; omega)
  by_cases h5 : a < 0x410
  · exact pick .p16 (by simp [Table.base]; omega) (by simp [Table.base, Table.size]; omega)
  by_cases h6 : a < 0x600
  · exact pick .lp (by simp [Table.base]; omega) (by simp [Table.base, Table.size]; omega)
  by_cases h7 : a < 0x700
  · exact pick .lx (by simp [Table.base]; omega) (by simp [Table.base, Table.size]; omega)
  by_cases h8 : a < 0x800
  · exact pick .p256 (by simp [Table.base]; omega) (by simp [Table.base, Table.size]; omega)
  by_cases h9 : a < 0x20000
  · exact pick .tp256 (by simp [Table.base]; omega) (by simp [Table.base, Table.size]; omega)
  by_cases h10 : a < 0x30000
  · exact pick .tx256 (by simp [Table.base]; omega) (by simp [Table.base, Table.size]; omega)
  by_cases h11 : a < 0x40000
  · exact pick .tpi256 (by simp [Table.base]; omega) (by simp [Table.base, Table.size]; omega)
  · exact pick .txi256 (by simp [Table.base]; omega) (by simp [Table.base, Table.size]; omega)

/-! The image BUILD leaves. -/

theorem Table.cells_wf (t : Table) : Memory.wf t.cells := by
  refine List.pairwise_map.mpr ?_
  exact List.pairwise_lt_range'

theorem Table.mem_cells {t : Table} {c : Host.Cell} (h : c ∈ t.cells) :
    ∃ o < t.size, c = (t.base + o, t.entry o) := by
  obtain ⟨a, ha, rfl⟩ := List.mem_map.mp h
  obtain ⟨h1, h2⟩ := List.mem_range'_1.mp ha
  refine ⟨a - t.base, by omega, ?_⟩
  rw [Nat.add_sub_cancel' h1]

theorem Table.cells_mem (t : Table) {o : Nat} (h : o < t.size) : (t.base + o, t.entry o) ∈ t.cells := by
  refine List.mem_map.mpr ⟨t.base + o, List.mem_range'_1.mpr ⟨by omega, by omega⟩, ?_⟩
  rw [Nat.add_sub_cancel_left]

theorem Table.mem_all (t : Table) : t ∈ Table.all := by cases t <;> decide

/-- The tables stand one after another (R53). -/
theorem Table.all_disjoint : Table.all.Pairwise fun t u => t.base + t.size ≤ u.base := by decide

/-- The image is in canonical form. -/
theorem tableImage_wf : Memory.wf tableImage := by
  refine List.pairwise_flatMap.mpr ⟨fun t _ => t.cells_wf, Table.all_disjoint.imp ?_⟩
  intro t u htu c hc d hd
  obtain ⟨o, ho, rfl⟩ := Table.mem_cells hc
  obtain ⟨p, _, rfl⟩ := Table.mem_cells hd
  show t.base + o < u.base + p
  omega

/-- The image holds every entry of every table (R53, R121 to R127). -/
theorem tableImage_read (t : Table) {o : Nat} (h : o < t.size) : tableImage.read (t.base + o) = some (t.entry o) :=
  Memory.read_of_mem tableImage_wf (List.mem_flatMap.mpr ⟨t, t.mem_all, t.cells_mem h⟩)

/-- The image lists no hole (R54). -/
theorem tableImage_backed {c : Host.Cell} (h : c ∈ tableImage) : tmemHole c.1 = false := by
  obtain ⟨t, _, hc⟩ := List.mem_flatMap.mp h
  obtain ⟨o, ho, rfl⟩ := Table.mem_cells hc
  exact t.backed ho

end Sys2Proof.Machine
end

