-- ==== Sys2Proof/Laws/Engines.lean ====
section
/-! SUPPORT. What the engines' TMEM reads give: while TMEM holds the tables each is an entry, and every index an engine
forms is inside its table (20_memory.md R54, 42_table_pdep.md R150). -/

namespace Sys2Proof.Machine

/-- A read inside a table, while the tables hold. -/
theorem TablesHold.readByte_entry {m : Memory} (h : TablesHold m) (t : Table) {o : Nat} (ho : o < t.size) :
    readByte m (t.base + o) = .ok (t.entry o) :=
  readByte_ok (t.backed ho) (h t o ho)

theorem tableImage_tablesHold : TablesHold tableImage := fun t _ ho => tableImage_read t ho

theorem ChunkWidth.values_pos (w : ChunkWidth) : 0 < w.values := by cases w <;> decide

theorem chunkOf_lt (w : ChunkWidth) (v : Word) (i : Nat) : chunkOf w v i < w.values := Nat.mod_lt _ w.values_pos

theorem popTable_size (w : ChunkWidth) : (popTable w).size = w.values := by cases w <;> rfl

/-- The entry an engine addresses in a PDEP table, and what the tables hold there (R121, R123). -/
theorem pdepTable_entry (w : ChunkWidth) (o : Orientation) {v b : Nat} (hv : v < w.values) (hb : b < w.values) :
    ∃ k < (pdepTable w o).size, entryAddr w o (pdepTable w o) v b = (pdepTable w o).base + k
      ∧ (pdepTable w o).entry k = (chunkPdep v b).setWidth 8 := by
  cases w <;> cases o <;> simp only [ChunkWidth.values, ChunkWidth.bits] at hv hb <;>
    simp only [entryAddr, pdepTable, Table.size, Table.base, Table.entry, ChunkWidth.values, ChunkWidth.bits]
  · exact ⟨16 * v + b, by omega, by omega, by rw [show (16 * v + b) / 16 = v by omega, show (16 * v + b) % 16 = b by omega]⟩
  · exact ⟨16 * b + v, by omega, by omega, by rw [show (16 * b + v) / 16 = b by omega, show (16 * b + v) % 16 = v by omega]⟩
  · exact ⟨256 * v + b, by omega, by omega,
      by rw [show (256 * v + b) / 256 = v by omega, show (256 * v + b) % 256 = b by omega]⟩
  · exact ⟨256 * b + v, by omega, by omega,
      by rw [show (256 * b + v) / 256 = b by omega, show (256 * b + v) % 256 = v by omega]⟩

/-- The entry an engine addresses in a PEXT table, and what the tables hold there (R122, R124). -/
theorem pextTable_entry (w : ChunkWidth) (o : Orientation) {v b : Nat} (hv : v < w.values) (hb : b < w.values) :
    ∃ k < (pextTable w o).size, entryAddr w o (pextTable w o) v b = (pextTable w o).base + k
      ∧ (pextTable w o).entry k = (chunkPext v b).setWidth 8 := by
  cases w <;> cases o <;> simp only [ChunkWidth.values, ChunkWidth.bits] at hv hb <;>
    simp only [entryAddr, pextTable, Table.size, Table.base, Table.entry, ChunkWidth.values, ChunkWidth.bits]
  · exact ⟨16 * v + b, by omega, by omega, by rw [show (16 * v + b) / 16 = v by omega, show (16 * v + b) % 16 = b by omega]⟩
  · exact ⟨16 * b + v, by omega, by omega, by rw [show (16 * b + v) / 16 = b by omega, show (16 * b + v) % 16 = v by omega]⟩
  · exact ⟨256 * v + b, by omega, by omega,
      by rw [show (256 * v + b) / 256 = v by omega, show (256 * v + b) % 256 = b by omega]⟩
  · exact ⟨256 * b + v, by omega, by omega,
      by rw [show (256 * b + v) / 256 = b by omega, show (256 * b + v) % 256 = v by omega]⟩

/-- A chunk's popcount from the table is the circuit's byte (R125), while the tables hold. -/
theorem TablesHold.chunkPopcount_ok {m : Memory} (h : TablesHold m) (w : ChunkWidth) (p : PopSource) {b : Nat}
    (hb : b < w.values) : ∃ c, chunkPopcount w p m b = .ok c
      ∧ c = match p with
        | .circuit => popcount (BitVec.ofNat 64 b)
        | .table => (chunkPop b).toNat := by
  cases p
  · exact ⟨_, rfl, rfl⟩
  · refine ⟨_, ?_, rfl⟩
    have e : (popTable w).entry b = chunkPop b := by cases w <;> rfl
    simp only [chunkPopcount, h.readByte_entry _ (by rw [popTable_size]; exact hb), Except.map, e]

/-- A loop whose every turn succeeds succeeds. -/
theorem foldlM_ok {α β : Type} {f : β → α → Except Fault β} {g : β → α → β} (l : List α) (b : β)
    (h : ∀ b, ∀ a ∈ l, f b a = .ok (g b a)) : l.foldlM f b = .ok (l.foldl g b) := by
  induction l generalizing b with
  | nil => rfl
  | cons x l ih =>
    rw [List.foldlM_cons, h b x List.mem_cons_self]
    exact ih _ fun b a ha => h b a (List.mem_cons_of_mem _ ha)

/-- Byte `j` of the vector made of bytes (R8). -/
theorem laneByte_laneOfBytes (f : Nat → Byte) {j : Nat} (hj : j < 16) : laneByte (laneOfBytes f) j = f j := by
  have bits : ∀ n k : Nat, n ≤ 16 → k < 128 →
      ((List.range n).foldl (fun r j => r ||| ((f j).setWidth 128 <<< (8 * j))) (0 : Lane)).getLsbD k
        = (decide (k / 8 < n) && (f (k / 8)).getLsbD (k % 8)) := by
    intro n
    induction n with
    | zero => intro k _ _; simp
    | succ n ih =>
      intro k hn hk
      rw [List.range_succ, List.foldl_append]
      simp only [List.foldl_cons, List.foldl_nil, BitVec.getLsbD_or, ih k (by omega) hk, BitVec.getLsbD_shiftLeft,
        BitVec.getLsbD_setWidth]
      rcases Nat.lt_trichotomy (k / 8) n with h | h | h
      · have : k < 8 * n := by omega
        simp [this, h, Nat.lt_succ_of_lt h]
      · subst h
        have h1 : ¬k < 8 * (k / 8) := by omega
        have h2 : k - 8 * (k / 8) = k % 8 := by omega
        simp [h1, h2, hk, show k % 8 < 128 by omega]
      · have h1 : ¬k < 8 * n := by omega
        have h2 : ¬k / 8 < n := by omega
        have h3 : ¬k / 8 < n + 1 := by omega
        have : (f n).getLsbD (k - 8 * n) = false := BitVec.getLsbD_of_ge _ _ (by omega)
        simp [h2, h3, this]
  apply BitVec.eq_of_getLsbD_eq
  intro i hi
  unfold laneByte laneOfBytes
  rw [BitVec.getLsbD_extractLsb', bits 16 (8 * j + i) (by omega) (by omega)]
  simp [show (8 * j + i) / 8 = j by omega, show (8 * j + i) % 8 = i by omega, hi, hj]

theorem nibbleAt_lt (v : Word) (p : Nat) : (nibbleAt v p).toNat < 16 := by
  have := (v.extractLsb' p 4).isLt
  unfold nibbleAt
  rw [BitVec.toNat_setWidth]
  exact Nat.lt_of_le_of_lt (Nat.mod_le _ _) this

/-- Every byte of LO is a nibble (R192). -/
theorem loNibbles_lt (mask : Word) {i : Nat} (hi : i < 16) : (laneByte (loNibbles mask) i).toNat < 16 := by
  unfold loNibbles
  rw [laneByte_laneOfBytes _ hi]
  split
  · exact nibbleAt_lt _ _
  · decide

/-- Every byte of HI is a nibble (R192). -/
theorem hiNibbles_lt (mask : Word) {i : Nat} (hi : i < 16) : (laneByte (hiNibbles mask) i).toNat < 16 := by
  unfold hiNibbles
  rw [laneByte_laneOfBytes _ hi]
  split
  · exact nibbleAt_lt _ _
  · decide

end Sys2Proof.Machine
end

