-- ==== Sys2Proof/Laws/State.lean ====
section
/-! SUPPORT. One lemma per field per update of State, each true by definition, so that no later proof unfolds a record
update. -/

namespace Sys2Proof.Machine

/-- An error leaves the old result (R241). -/
@[simp] theorem completedResult_none (old : Word) (e : ErrCode) : completedResult old e none = old := by
  cases e <;> rfl

/-- A completion with ERR = OK and a result writes it (R243). -/
@[simp] theorem completedResult_ok_some (old v : Word) : completedResult old .ok (some v) = v := rfl

/-! Fields after `acceptCommand`. -/

@[simp] theorem acceptCommand_opa (s : State) (v : Word) : (acceptCommand s v).opa = s.opa := rfl
@[simp] theorem acceptCommand_opb (s : State) (v : Word) : (acceptCommand s v).opb = s.opb := rfl
@[simp] theorem acceptCommand_result (s : State) (v : Word) : (acceptCommand s v).result = s.result := rfl
@[simp] theorem acceptCommand_busy (s : State) (v : Word) : (acceptCommand s v).busy = true := rfl
@[simp] theorem acceptCommand_tv (s : State) (v : Word) :
    (acceptCommand s v).tv = if v = 0x0000000000000001 then false else s.tv := rfl
@[simp] theorem acceptCommand_ovr (s : State) (v : Word) : (acceptCommand s v).ovr = false := rfl
@[simp] theorem acceptCommand_err (s : State) (v : Word) : (acceptCommand s v).err = s.err := rfl
@[simp] theorem acceptCommand_lop (s : State) (v : Word) : (acceptCommand s v).lop = wordOpcode v := rfl
@[simp] theorem acceptCommand_lrsv (s : State) (v : Word) : (acceptCommand s v).lrsv = wordRsvNonzero v := rfl
@[simp] theorem acceptCommand_la (s : State) (v : Word) : (acceptCommand s v).la = s.opa := rfl
@[simp] theorem acceptCommand_lb (s : State) (v : Word) : (acceptCommand s v).lb = s.opb := rfl
@[simp] theorem acceptCommand_tmem (s : State) (v : Word) : (acceptCommand s v).tmem = s.tmem := rfl
@[simp] theorem acceptCommand_inputs (s : State) (v : Word) : (acceptCommand s v).inputs = s.inputs := rfl
@[simp] theorem acceptCommand_reply (s : State) (v : Word) : (acceptCommand s v).reply = s.reply := rfl

/-! Fields after `dropCommand`. -/

@[simp] theorem dropCommand_opa (s : State) : (dropCommand s).opa = s.opa := rfl
@[simp] theorem dropCommand_opb (s : State) : (dropCommand s).opb = s.opb := rfl
@[simp] theorem dropCommand_result (s : State) : (dropCommand s).result = s.result := rfl
@[simp] theorem dropCommand_busy (s : State) : (dropCommand s).busy = s.busy := rfl
@[simp] theorem dropCommand_tv (s : State) : (dropCommand s).tv = s.tv := rfl
@[simp] theorem dropCommand_ovr (s : State) : (dropCommand s).ovr = true := rfl
@[simp] theorem dropCommand_err (s : State) : (dropCommand s).err = s.err := rfl
@[simp] theorem dropCommand_lop (s : State) : (dropCommand s).lop = s.lop := rfl
@[simp] theorem dropCommand_lrsv (s : State) : (dropCommand s).lrsv = s.lrsv := rfl
@[simp] theorem dropCommand_la (s : State) : (dropCommand s).la = s.la := rfl
@[simp] theorem dropCommand_lb (s : State) : (dropCommand s).lb = s.lb := rfl
@[simp] theorem dropCommand_tmem (s : State) : (dropCommand s).tmem = s.tmem := rfl
@[simp] theorem dropCommand_inputs (s : State) : (dropCommand s).inputs = s.inputs := rfl
@[simp] theorem dropCommand_reply (s : State) : (dropCommand s).reply = s.reply := rfl

/-! Fields after `complete`. -/

@[simp] theorem complete_opa (s : State) (e : ErrCode) (res : Option Word) : (complete s e res).opa = s.opa := rfl
@[simp] theorem complete_opb (s : State) (e : ErrCode) (res : Option Word) : (complete s e res).opb = s.opb := rfl
@[simp] theorem complete_result (s : State) (e : ErrCode) (res : Option Word) :
    (complete s e res).result = completedResult s.result e res := rfl
@[simp] theorem complete_busy (s : State) (e : ErrCode) (res : Option Word) : (complete s e res).busy = false := rfl
@[simp] theorem complete_tv (s : State) (e : ErrCode) (res : Option Word) : (complete s e res).tv = s.tv := rfl
@[simp] theorem complete_ovr (s : State) (e : ErrCode) (res : Option Word) : (complete s e res).ovr = s.ovr := rfl
@[simp] theorem complete_err (s : State) (e : ErrCode) (res : Option Word) : (complete s e res).err = e := rfl
@[simp] theorem complete_lop (s : State) (e : ErrCode) (res : Option Word) : (complete s e res).lop = s.lop := rfl
@[simp] theorem complete_lrsv (s : State) (e : ErrCode) (res : Option Word) : (complete s e res).lrsv = s.lrsv := rfl
@[simp] theorem complete_la (s : State) (e : ErrCode) (res : Option Word) : (complete s e res).la = s.la := rfl
@[simp] theorem complete_lb (s : State) (e : ErrCode) (res : Option Word) : (complete s e res).lb = s.lb := rfl
@[simp] theorem complete_tmem (s : State) (e : ErrCode) (res : Option Word) : (complete s e res).tmem = s.tmem := rfl
@[simp] theorem complete_inputs (s : State) (e : ErrCode) (res : Option Word) :
    (complete s e res).inputs = s.inputs := rfl
@[simp] theorem complete_reply (s : State) (e : ErrCode) (res : Option Word) :
    (complete s e res).reply = s.reply := rfl

/-! Fields after `completeError`. -/

@[simp] theorem completeError_opa (s : State) (e : ErrCode) : (completeError s e).opa = s.opa := rfl
@[simp] theorem completeError_opb (s : State) (e : ErrCode) : (completeError s e).opb = s.opb := rfl
@[simp] theorem completeError_result (s : State) (e : ErrCode) :
    (completeError s e).result = s.result := completedResult_none s.result e
@[simp] theorem completeError_busy (s : State) (e : ErrCode) : (completeError s e).busy = false := rfl
@[simp] theorem completeError_tv (s : State) (e : ErrCode) : (completeError s e).tv = s.tv := rfl
@[simp] theorem completeError_ovr (s : State) (e : ErrCode) : (completeError s e).ovr = s.ovr := rfl
@[simp] theorem completeError_err (s : State) (e : ErrCode) : (completeError s e).err = e := rfl
@[simp] theorem completeError_lop (s : State) (e : ErrCode) : (completeError s e).lop = s.lop := rfl
@[simp] theorem completeError_lrsv (s : State) (e : ErrCode) : (completeError s e).lrsv = s.lrsv := rfl
@[simp] theorem completeError_la (s : State) (e : ErrCode) : (completeError s e).la = s.la := rfl
@[simp] theorem completeError_lb (s : State) (e : ErrCode) : (completeError s e).lb = s.lb := rfl
@[simp] theorem completeError_tmem (s : State) (e : ErrCode) : (completeError s e).tmem = s.tmem := rfl
@[simp] theorem completeError_inputs (s : State) (e : ErrCode) : (completeError s e).inputs = s.inputs := rfl
@[simp] theorem completeError_reply (s : State) (e : ErrCode) : (completeError s e).reply = s.reply := rfl

/-! Fields after `completeIllegal`. -/

@[simp] theorem completeIllegal_opa (s : State) : (completeIllegal s).opa = s.opa := rfl
@[simp] theorem completeIllegal_opb (s : State) : (completeIllegal s).opb = s.opb := rfl
@[simp] theorem completeIllegal_result (s : State) : (completeIllegal s).result = s.result := rfl
@[simp] theorem completeIllegal_busy (s : State) : (completeIllegal s).busy = false := rfl
@[simp] theorem completeIllegal_tv (s : State) : (completeIllegal s).tv = s.tv := rfl
@[simp] theorem completeIllegal_ovr (s : State) : (completeIllegal s).ovr = s.ovr := rfl
@[simp] theorem completeIllegal_err (s : State) : (completeIllegal s).err = .illegalOp := rfl
@[simp] theorem completeIllegal_lop (s : State) : (completeIllegal s).lop = s.lop := rfl
@[simp] theorem completeIllegal_lrsv (s : State) : (completeIllegal s).lrsv = s.lrsv := rfl
@[simp] theorem completeIllegal_la (s : State) : (completeIllegal s).la = s.la := rfl
@[simp] theorem completeIllegal_lb (s : State) : (completeIllegal s).lb = s.lb := rfl
@[simp] theorem completeIllegal_tmem (s : State) : (completeIllegal s).tmem = s.tmem := rfl
@[simp] theorem completeIllegal_inputs (s : State) : (completeIllegal s).inputs = s.inputs := rfl
@[simp] theorem completeIllegal_reply (s : State) : (completeIllegal s).reply = s.reply := rfl

/-! Fields after `completeBuild`. -/

@[simp] theorem completeBuild_opa (s : State) (m : Memory) : (completeBuild s m).opa = s.opa := rfl
@[simp] theorem completeBuild_opb (s : State) (m : Memory) : (completeBuild s m).opb = s.opb := rfl
@[simp] theorem completeBuild_result (s : State) (m : Memory) : (completeBuild s m).result = s.result := rfl
@[simp] theorem completeBuild_busy (s : State) (m : Memory) : (completeBuild s m).busy = false := rfl
@[simp] theorem completeBuild_tv (s : State) (m : Memory) : (completeBuild s m).tv = true := rfl
@[simp] theorem completeBuild_ovr (s : State) (m : Memory) : (completeBuild s m).ovr = s.ovr := rfl
@[simp] theorem completeBuild_err (s : State) (m : Memory) : (completeBuild s m).err = .ok := rfl
@[simp] theorem completeBuild_lop (s : State) (m : Memory) : (completeBuild s m).lop = s.lop := rfl
@[simp] theorem completeBuild_lrsv (s : State) (m : Memory) : (completeBuild s m).lrsv = s.lrsv := rfl
@[simp] theorem completeBuild_la (s : State) (m : Memory) : (completeBuild s m).la = s.la := rfl
@[simp] theorem completeBuild_lb (s : State) (m : Memory) : (completeBuild s m).lb = s.lb := rfl
@[simp] theorem completeBuild_tmem (s : State) (m : Memory) : (completeBuild s m).tmem = m := rfl
@[simp] theorem completeBuild_inputs (s : State) (m : Memory) : (completeBuild s m).inputs = s.inputs := rfl
@[simp] theorem completeBuild_reply (s : State) (m : Memory) : (completeBuild s m).reply = s.reply := rfl

/-! Fields after `completeBuildInconsistent`. -/

@[simp] theorem completeBuildInconsistent_opa (s : State) : (completeBuildInconsistent s).opa = s.opa := rfl
@[simp] theorem completeBuildInconsistent_opb (s : State) : (completeBuildInconsistent s).opb = s.opb := rfl
@[simp] theorem completeBuildInconsistent_result (s : State) : (completeBuildInconsistent s).result = s.result := rfl
@[simp] theorem completeBuildInconsistent_busy (s : State) : (completeBuildInconsistent s).busy = false := rfl
@[simp] theorem completeBuildInconsistent_tv (s : State) : (completeBuildInconsistent s).tv = s.tv := rfl
@[simp] theorem completeBuildInconsistent_ovr (s : State) : (completeBuildInconsistent s).ovr = s.ovr := rfl
@[simp] theorem completeBuildInconsistent_err (s : State) :
    (completeBuildInconsistent s).err = .buildInconsistent := rfl
@[simp] theorem completeBuildInconsistent_lop (s : State) : (completeBuildInconsistent s).lop = s.lop := rfl
@[simp] theorem completeBuildInconsistent_lrsv (s : State) : (completeBuildInconsistent s).lrsv = s.lrsv := rfl
@[simp] theorem completeBuildInconsistent_la (s : State) : (completeBuildInconsistent s).la = s.la := rfl
@[simp] theorem completeBuildInconsistent_lb (s : State) : (completeBuildInconsistent s).lb = s.lb := rfl
@[simp] theorem completeBuildInconsistent_tmem (s : State) : (completeBuildInconsistent s).tmem = [] := rfl
@[simp] theorem completeBuildInconsistent_inputs (s : State) : (completeBuildInconsistent s).inputs = s.inputs := rfl
@[simp] theorem completeBuildInconsistent_reply (s : State) : (completeBuildInconsistent s).reply = s.reply := rfl

/-! Fields after `resetInput`. -/

@[simp] theorem resetInput_opa (s : State) : (resetInput s).opa = State.reset.opa := rfl
@[simp] theorem resetInput_opb (s : State) : (resetInput s).opb = State.reset.opb := rfl
@[simp] theorem resetInput_result (s : State) : (resetInput s).result = State.reset.result := rfl
@[simp] theorem resetInput_busy (s : State) : (resetInput s).busy = State.reset.busy := rfl
@[simp] theorem resetInput_tv (s : State) : (resetInput s).tv = State.reset.tv := rfl
@[simp] theorem resetInput_ovr (s : State) : (resetInput s).ovr = State.reset.ovr := rfl
@[simp] theorem resetInput_err (s : State) : (resetInput s).err = State.reset.err := rfl
@[simp] theorem resetInput_lop (s : State) : (resetInput s).lop = State.reset.lop := rfl
@[simp] theorem resetInput_lrsv (s : State) : (resetInput s).lrsv = State.reset.lrsv := rfl
@[simp] theorem resetInput_la (s : State) : (resetInput s).la = State.reset.la := rfl
@[simp] theorem resetInput_lb (s : State) : (resetInput s).lb = State.reset.lb := rfl
@[simp] theorem resetInput_tmem (s : State) : (resetInput s).tmem = State.reset.tmem := rfl
@[simp] theorem resetInput_inputs (s : State) : (resetInput s).inputs = s.inputs := rfl
@[simp] theorem resetInput_reply (s : State) : (resetInput s).reply = State.reset.reply := rfl

/-! Fields after `placeCommand`. -/

@[simp] theorem placeCommand_opa (s : State) (nbits w : Nat) : (placeCommand s nbits w).opa = s.opa := rfl
@[simp] theorem placeCommand_opb (s : State) (nbits w : Nat) : (placeCommand s nbits w).opb = s.opb := rfl
@[simp] theorem placeCommand_result (s : State) (nbits w : Nat) : (placeCommand s nbits w).result = s.result := rfl
@[simp] theorem placeCommand_busy (s : State) (nbits w : Nat) : (placeCommand s nbits w).busy = true := rfl
@[simp] theorem placeCommand_tv (s : State) (nbits w : Nat) :
    (placeCommand s nbits w).tv = if BitVec.ofNat 64 (w % 2 ^ nbits) = 0x0000000000000001 then false else s.tv := rfl
@[simp] theorem placeCommand_ovr (s : State) (nbits w : Nat) : (placeCommand s nbits w).ovr = false := rfl
@[simp] theorem placeCommand_err (s : State) (nbits w : Nat) : (placeCommand s nbits w).err = s.err := rfl
@[simp] theorem placeCommand_lop (s : State) (nbits w : Nat) :
    (placeCommand s nbits w).lop = wordOpcode (BitVec.ofNat 64 (w % 2 ^ nbits)) := rfl
@[simp] theorem placeCommand_lrsv (s : State) (nbits w : Nat) :
    (placeCommand s nbits w).lrsv = wordRsvNonzero (BitVec.ofNat 64 (w % 2 ^ nbits)) := rfl
@[simp] theorem placeCommand_la (s : State) (nbits w : Nat) : (placeCommand s nbits w).la = s.opa := rfl
@[simp] theorem placeCommand_lb (s : State) (nbits w : Nat) : (placeCommand s nbits w).lb = s.opb := rfl
@[simp] theorem placeCommand_tmem (s : State) (nbits w : Nat) : (placeCommand s nbits w).tmem = s.tmem := rfl
@[simp] theorem placeCommand_inputs (s : State) (nbits w : Nat) :
    (placeCommand s nbits w).inputs = .engine :: s.inputs := rfl
@[simp] theorem placeCommand_reply (s : State) (nbits w : Nat) : (placeCommand s nbits w).reply = s.reply := rfl

/-! Fields of `State.reset`. -/

@[simp] theorem State.reset_opa : State.reset.opa = 0 := rfl
@[simp] theorem State.reset_opb : State.reset.opb = 0 := rfl
@[simp] theorem State.reset_result : State.reset.result = 0 := rfl
@[simp] theorem State.reset_busy : State.reset.busy = false := rfl
@[simp] theorem State.reset_tv : State.reset.tv = false := rfl
@[simp] theorem State.reset_ovr : State.reset.ovr = false := rfl
@[simp] theorem State.reset_err : State.reset.err = .ok := rfl
@[simp] theorem State.reset_lop : State.reset.lop = 0 := rfl
@[simp] theorem State.reset_lrsv : State.reset.lrsv = false := rfl
@[simp] theorem State.reset_la : State.reset.la = 0 := rfl
@[simp] theorem State.reset_lb : State.reset.lb = 0 := rfl
@[simp] theorem State.reset_tmem : State.reset.tmem = [] := rfl
@[simp] theorem State.reset_inputs : State.reset.inputs = [] := rfl
@[simp] theorem State.reset_reply : State.reset.reply = .none := rfl

end Sys2Proof.Machine
end

