-- ==== Sys2Proof/Laws/Ops.lean ====
section
/-! SUPPORT. One lemma per shared operation that says once everything it can do, and the inversion lemmas of `exec` and
`step` that later proofs cite instead of unfolding them. -/

namespace Sys2Proof.Machine

/-! Completion of a command whose engine answers. -/

theorem finish_next_iff {s t : State} {r : Except Fault Word} :
    finish s r = .next t ↔ ∃ v, r = .ok v ∧ t = complete s .ok (some v) := by
  cases r with
  | error f => simp [finish]
  | ok v => simp [finish, eq_comm]

theorem finish_fault_iff {s : State} {r : Except Fault Word} {f : Fault} :
    finish s r = .fault f ↔ r = .error f := by
  cases r with
  | error g => simp [finish]
  | ok v => simp [finish]

theorem finish_ne_refused {s : State} {r : Except Fault Word} {q : Refusal} : finish s r ≠ .refused q := by
  cases r <;> simp [finish]

/-! The guard of a table-reading command. -/

theorem whenBuilt_built {s : State} (h : s.tv = true) (b : Host.Outcome State Fault Refusal) :
    whenBuilt s b = b := by
  simp [whenBuilt, h]

theorem whenBuilt_notBuilt {s : State} (h : s.tv = false) (b : Host.Outcome State Fault Refusal) :
    whenBuilt s b = .next (completeError s .notBuilt) := by
  simp [whenBuilt, h]

/-! The rank check of the select1 commands. -/

theorem withRank_inRange {s : State} (h0 : 0 ≤ operandRank s) (h63 : operandRank s ≤ 63) (f : Word → Nat → Word) :
    withRank s f = .next (complete s .ok (some (f (operandA s) (operandRank s).toNat))) := by
  have h : ¬(operandRank s < 0 ∨ 63 < operandRank s) := by omega
  simp [withRank, h]

theorem withRank_outOfRange {s : State} (h : operandRank s < 0 ∨ 63 < operandRank s) (f : Word → Nat → Word) :
    withRank s f = .next (completeError s .kRange) := by
  simp [withRank, h]

/-- Everything a command of the select1 family can do. -/
theorem withRank_cases (s : State) (f : Word → Nat → Word) :
    ((operandRank s < 0 ∨ 63 < operandRank s) ∧ withRank s f = .next (completeError s .kRange)) ∨
    (0 ≤ operandRank s ∧ operandRank s ≤ 63 ∧
      withRank s f = .next (complete s .ok (some (f (operandA s) (operandRank s).toNat)))) := by
  by_cases h : operandRank s < 0 ∨ 63 < operandRank s
  · exact .inl ⟨h, withRank_outOfRange h f⟩
  · exact .inr ⟨by omega, by omega, withRank_inRange (by omega) (by omega) f⟩

/-! What a completion can do. -/

/-- The commands of the select1 family. -/
def isSelect : Instr → Bool
  | .sel1Naive | .sel1Clear | .sel1Bsearch | .sel1Pdep => true
  | _ => false

theorem isSelect_iff (i : Instr) : isSelect i = true ↔ i ∈ [Instr.sel1Naive, .sel1Clear, .sel1Bsearch, .sel1Pdep] := by
  cases i <;> decide

theorem readsTables_eq_false_of_isSelect {i : Instr} (h : isSelect i = true) : readsTables i = false := by
  cases i <;> first | rfl | cases h

/-- Everything the completion of command `i` can be: each outcome with its guard. -/
inductive Completed (i : Instr) (s : State) : Host.Outcome State Fault Refusal → Prop where
  /-- A table-reading command with TV = 0 (R244). -/
  | notBuilt (hi : readsTables i = true) (htv : s.tv = false) : Completed i s (.next (completeError s .notBuilt))
  /-- A select1 command with its rank out of range (R220). -/
  | kRange (hi : isSelect i = true) (hk : operandRank s < 0 ∨ 63 < operandRank s) :
      Completed i s (.next (completeError s .kRange))
  /-- TBLRD of a hole (R132). -/
  | badIndex (hi : i = .tblrd) (htv : s.tv = true) (hh : tmemHole (operandOffset s) = true) :
      Completed i s (.next (completeError s .badIndex))
  /-- NOP (R120). -/
  | nop (hi : i = .nop) : Completed i s (.next (complete s .ok none))
  /-- BUILD (R128, R130). -/
  | build (hi : i = .build) (hc : buildConsistent = true) : Completed i s (.next (completeBuild s tableImage))
  | buildInconsistent (hi : i = .build) (hc : buildConsistent = false) :
      Completed i s (.next (completeBuildInconsistent s))
  /-- A result, with ERR = OK (R243). -/
  | result (hn : i ≠ .nop) (hb : i ≠ .build) (htv : readsTables i = true → s.tv = true)
      (hk : isSelect i = true → 0 ≤ operandRank s ∧ operandRank s ≤ 63)
      (hh : i = .tblrd → tmemHole (operandOffset s) = false) (v : Word) :
      Completed i s (.next (complete s .ok (some v)))
  /-- A TMEM read the spec rules out (log 6, log 23). -/
  | fault (hi : readsTables i = true) (htv : s.tv = true) (f : Fault) : Completed i s (.fault f)

theorem Completed.ofGuarded {i : Instr} {s : State} (hi : readsTables i = true) (hs : isSelect i = false)
    (hh : i = .tblrd → tmemHole (operandOffset s) = false) (r : Except Fault Word) :
    Completed i s (whenBuilt s (finish s r)) := by
  cases htv : s.tv with
  | false => rw [whenBuilt_notBuilt htv]; exact .notBuilt hi htv
  | true =>
    rw [whenBuilt_built htv]
    cases r with
    | error f => exact .fault hi htv f
    | ok v =>
      exact .result (by rintro rfl; cases hi) (by rintro rfl; cases hi) (fun _ => htv)
        (fun h => by rw [hs] at h; cases h) hh v

theorem Completed.ofRank {i : Instr} {s : State} (hi : isSelect i = true) (hr : readsTables i = false)
    (f : Word → Nat → Word) : Completed i s (withRank s f) := by
  rcases withRank_cases s f with ⟨h, e⟩ | ⟨h0, h63, e⟩ <;> rw [e]
  · exact .kRange hi h
  · exact .result (by rintro rfl; cases hi) (by rintro rfl; cases hi) (fun h => by rw [hr] at h; cases h)
      (fun _ => ⟨h0, h63⟩) (by rintro rfl; cases hi) _

/-- The inversion lemma of `exec`: later proofs split on it instead of unfolding the meanings. -/
theorem exec_completed (i : Instr) (s : State) : Completed i s (exec i s) := by
  cases i with
  | nop => exact .nop rfl
  | build =>
    simp only [exec, execBuild]
    cases hc : buildConsistent with
    | true => exact .build rfl hc
    | false => exact .buildInconsistent rfl hc
  | tblrd =>
    simp only [exec, execTblrd]
    cases hh : tmemHole (operandOffset s) with
    | false => exact .ofGuarded rfl rfl (fun _ => hh) _
    | true =>
      cases htv : s.tv with
      | false => rw [whenBuilt_notBuilt htv]; exact .notBuilt rfl htv
      | true => rw [whenBuilt_built htv]; exact .badIndex rfl htv hh
  | pextCf | pdepRef | pextRef | popcntRef =>
    exact .result (by decide) (by decide) (fun h => by cases h) (fun h => by cases h) (fun h => by cases h) _
  | sel1Naive | sel1Clear | sel1Bsearch | sel1Pdep => exact .ofRank rfl rfl _
  | _ => exact .ofGuarded rfl rfl (fun h => by cases h) _

/-- No completion is refused. -/
theorem exec_ne_refused (i : Instr) (s : State) (q : Refusal) : exec i s ≠ .refused q := by
  intro h
  have := h ▸ exec_completed i s
  cases this

/-! The Host's step. -/

/-- Everything a host access can do. -/
theorem hostStep_cases (s : State) (h : HostAccess) :
    (∃ off, accessAccepted off 8 = true ∧ h = .read off 8 ∧
      hostStep s h = .next { s with reply := .data (windowRead s off) }) ∨
    (∃ off v, accessAccepted off 8 = true ∧ h = .write off 8 v ∧
      hostStep s h = .next { windowWrite s off v with reply := .written }) ∨
    hostStep s h = rejectAccess := by
  have width : ∀ {off width : Nat}, accessAccepted off width = true → width = 8 := by
    intro off width h
    simp only [accessAccepted, Bool.and_eq_true, beq_iff_eq] at h
    exact h.1.1
  cases h with
  | read off w =>
    by_cases ha : accessAccepted off w = true
    · obtain rfl := width ha
      exact .inl ⟨off, ha, rfl, by simp [hostStep, ha]⟩
    · exact .inr (.inr (by simp [hostStep, ha]))
  | write off w v =>
    by_cases ha : accessAccepted off w = true
    · obtain rfl := width ha
      exact .inr (.inl ⟨off, v, ha, rfl, by simp [hostStep, ha]⟩)
    · exact .inr (.inr (by simp [hostStep, ha]))

/-- Everything an accepted host write can do to PTE. -/
theorem windowWrite_cases (s : State) (off : Nat) (v : Word) :
    (regAt off = some .opa ∧ windowWrite s off v = { s with opa := v }) ∨
    (regAt off = some .opb ∧ windowWrite s off v = { s with opb := v }) ∨
    (regAt off = some .cmd ∧ s.busy = true ∧ windowWrite s off v = dropCommand s) ∨
    (regAt off = some .cmd ∧ s.busy = false ∧ windowWrite s off v = acceptCommand s v) ∨
    windowWrite s off v = s := by
  unfold windowWrite
  match regAt off with
  | none => exact .inr (.inr (.inr (.inr rfl)))
  | some .opa => exact .inl ⟨rfl, rfl⟩
  | some .opb => exact .inr (.inl ⟨rfl, rfl⟩)
  | some .result => exact .inr (.inr (.inr (.inr rfl)))
  | some .status => exact .inr (.inr (.inr (.inr rfl)))
  | some .cmd =>
    cases hb : s.busy with
    | true => exact .inr (.inr (.inl ⟨rfl, rfl, by simp [writeReg, requestCommand, hb]⟩))
    | false => exact .inr (.inr (.inr (.inl ⟨rfl, rfl, by simp [writeReg, requestCommand, hb]⟩)))

/-! The Engine's turn and the step. -/

/-- Everything the Engine's turn can do. -/
theorem engineTurn_cases (s : State) :
    (s.busy = false ∧ engineTurn s = .next s) ∨
    (s.busy = true ∧ ∃ i, decodeLatched s.lop s.lrsv = .ok i ∧ engineTurn s = exec i s) ∨
    (s.busy = true ∧ ∃ r, decodeLatched s.lop s.lrsv = .error r ∧ engineTurn s = .next (completeIllegal s)) := by
  cases hb : s.busy with
  | false => exact .inl ⟨rfl, by simp [engineTurn, hb]⟩
  | true =>
    cases hd : decodeLatched s.lop s.lrsv with
    | ok i => exact .inr (.inl ⟨rfl, i, rfl, by simp [engineTurn, completion, hb, hd]⟩)
    | error r => exact .inr (.inr ⟨rfl, r, rfl, by simp [engineTurn, completion, hb, hd]⟩)

/-- With no move left the Engine takes its turn. -/
theorem step_nil {s : State} (h : s.inputs = []) : step s = engineTurn s := by
  simp [step, h]

/-- A step makes the next move. -/
theorem step_cons {s : State} {m : Input} {rest : List Input} (h : s.inputs = m :: rest) :
    step s = move { s with inputs := rest } m := by
  simp [step, h]

/-- Everything a step can do. -/
theorem step_cases (s : State) :
    (s.inputs = [] ∧ step s = engineTurn s) ∨
    (∃ rest, s.inputs = .engine :: rest ∧ step s = engineTurn { s with inputs := rest }) ∨
    (∃ rest, s.inputs = .reset :: rest ∧ step s = .next (resetInput { s with inputs := rest })) ∨
    (∃ h rest, s.inputs = .host h :: rest ∧ step s = hostStep { s with inputs := rest } h) := by
  match hs : s.inputs with
  | [] => exact .inl ⟨rfl, step_nil hs⟩
  | .engine :: rest => exact .inr (.inl ⟨rest, rfl, step_cons hs⟩)
  | .reset :: rest => exact .inr (.inr (.inl ⟨rest, rfl, step_cons hs⟩))
  | .host h :: rest => exact .inr (.inr (.inr ⟨h, rest, rfl, step_cons hs⟩))

/-- A completion neither reads nor writes OPA, OPB and `reply` (R33: operands are read at acceptance only): changing them
changes only them in what `exec` answers. -/
theorem exec_hostFields (i : Instr) (s : State) (a b : Word) (r : Reply) :
    (∀ t, exec i s = .next t →
      exec i { s with opa := a, opb := b, reply := r } = .next { t with opa := a, opb := b, reply := r })
    ∧ ∀ f, exec i s = .fault f → exec i { s with opa := a, opb := b, reply := r } = .fault f := by
  let u : State := { s with opa := a, opb := b, reply := r }
  have guarded : ∀ e : Except Fault Word,
      (∀ t, whenBuilt s (finish s e) = .next t →
        whenBuilt u (finish u e) = .next { t with opa := a, opb := b, reply := r })
      ∧ ∀ f, whenBuilt s (finish s e) = .fault f → whenBuilt u (finish u e) = .fault f := by
    intro e
    cases htv : s.tv <;> cases e <;> simp [whenBuilt, u, htv, finish, complete, completeError]
  have ranked : ∀ g, (∀ t, withRank s g = .next t → withRank u g = .next { t with opa := a, opb := b, reply := r })
      ∧ ∀ f, withRank s g = .fault f → withRank u g = .fault f := by
    intro g
    by_cases h : operandRank s < 0 ∨ 63 < operandRank s
    · rw [withRank_outOfRange h, withRank_outOfRange (s := u) h]
      exact ⟨by rintro _ ⟨⟩; rfl, by rintro _ ⟨⟩⟩
    · rw [not_or] at h
      rw [withRank_inRange (by omega) (by omega),
        withRank_inRange (s := u) (show 0 ≤ operandRank s by omega) (show operandRank s ≤ 63 by omega)]
      exact ⟨by rintro _ ⟨⟩; rfl, by rintro _ ⟨⟩⟩
  cases i with
  | nop | pextCf | pdepRef | pextRef | popcntRef => exact ⟨by rintro _ ⟨⟩; rfl, by rintro _ ⟨⟩⟩
  | build =>
    simp only [exec, execBuild]
    split <;> exact ⟨by rintro _ ⟨⟩; rfl, by rintro _ ⟨⟩⟩
  | tblrd =>
    by_cases h : tmemHole (operandOffset s) = true
    · have e : ∀ v : State, operandOffset v = operandOffset s →
          exec .tblrd v = whenBuilt v (.next (completeError v .badIndex)) := by
        intro v hv
        simp only [exec, execTblrd, hv, h, if_true]
      rw [e s rfl, e { s with opa := a, opb := b, reply := r } rfl]
      cases htv : s.tv <;> simp [whenBuilt, htv, completeError, complete]
    · have e : ∀ v : State, operandOffset v = operandOffset s → v.tmem = s.tmem →
          exec .tblrd v = whenBuilt v (finish v ((readByte s.tmem (operandOffset s)).map (·.setWidth 64))) := by
        intro v hv hm
        simp only [exec, execTblrd, hv, hm]
        rw [if_neg h]
      rw [e s rfl rfl, e { s with opa := a, opb := b, reply := r } rfl rfl]
      exact guarded _
  | sel1Naive | sel1Clear | sel1Bsearch | sel1Pdep => exact ranked _
  | _ => exact guarded _

end Sys2Proof.Machine
end

