-- ==== Sys2Proof/Laws/Oracle.lean ====
section
/-! SUPPORT. Small laws of the reference functions of 40_reference.md: bits, counts and the shape of their loops. -/

namespace Sys2Proof.Machine

theorem getLsbD_bitAt (b : Bool) (i j : Nat) : (bitAt b i).getLsbD j = (decide (j < 64) && decide (i = j) && b) := by
  unfold bitAt
  rw [BitVec.getLsbD_shiftLeft, BitVec.getLsbD_setWidth]
  by_cases hj : j < 64
  · by_cases h : i = j
    · subst h
      cases b <;> simp [hj]
    · by_cases hlt : j < i
      · simp [h, hlt]
      · have : (BitVec.ofBool b).getLsbD (j - i) = false := BitVec.getLsbD_of_ge _ _ (by omega)
        simp [h, this]
  · simp [hj]

/-- One bit more under the count (R100). -/
theorem popcount_setWidth_succ (v : Word) {n : Nat} (h : n < 64) :
    popcount (v.setWidth (n + 1)) = popcount (v.setWidth n) + (v.getLsbD n).toNat := by
  unfold popcount
  rw [List.range_succ, List.foldl_append]
  simp only [List.foldl_cons, List.foldl_nil]
  have key : ∀ c, (List.range n).foldl (fun c i => c + ((v.setWidth (n + 1)).getLsbD i).toNat) c
      = (List.range n).foldl (fun c i => c + ((v.setWidth n).getLsbD i).toNat) c := by
    intro c
    refine List.foldl_ext _ _ _ fun c i hi => ?_
    have hi : i < n := List.mem_range.mp hi
    simp [hi, Nat.lt_succ_of_lt hi]
  rw [key]
  simp [BitVec.getLsbD_setWidth, h]

@[simp] theorem popcount_setWidth_zero (v : Word) : popcount (v.setWidth 0) = 0 := rfl

/-- The count does not exceed the number of bits counted. -/
theorem popcount_setWidth_le (v : Word) {n : Nat} (h : n ≤ 64) : popcount (v.setWidth n) ≤ n := by
  induction n with
  | zero => simp
  | succ n ih =>
    rw [popcount_setWidth_succ v (by omega)]
    have := ih (by omega)
    have := (v.getLsbD n).toNat_le
    omega

theorem popcount_eq_setWidth (v : Word) : popcount v = popcount (v.setWidth 64) := by rw [BitVec.setWidth_eq]

/-- The source index `j` of the loop of R101 after `n` turns. -/
theorem pdepLoop_index (a m : Word) {n : Nat} (h : n ≤ 64) :
    ((List.range n).foldl (pdepTurn a m) (0, 0)).2 = popcount (m.setWidth n) := by
  induction n with
  | zero => rfl
  | succ n ih =>
    rw [List.range_succ, List.foldl_append, popcount_setWidth_succ m (by omega), ← ih (by omega)]
    simp only [List.foldl_cons, List.foldl_nil, pdepTurn]
    cases m.getLsbD n <;> simp

/-- The target index `j` of the loop of R102 after `n` turns. -/
theorem pextLoop_index (a m : Word) {n : Nat} (h : n ≤ 64) :
    ((List.range n).foldl (pextTurn a m) (0, 0)).2 = popcount (m.setWidth n) := by
  induction n with
  | zero => rfl
  | succ n ih =>
    rw [List.range_succ, List.foldl_append, popcount_setWidth_succ m (by omega), ← ih (by omega)]
    simp only [List.foldl_cons, List.foldl_nil, pextTurn]
    cases m.getLsbD n <;> simp

/-- What a found bit position is (R104). -/
theorem bsf_eq_some {v : Word} {i : Nat} (h : bsf v = some i) : i < 64 ∧ v.getLsbD i = true := by
  unfold bsf at h
  exact ⟨List.mem_range.mp (List.mem_of_find?_eq_some h), List.find?_some h⟩

end Sys2Proof.Machine
end

