-- ==== Sys2Proof/Laws/PerInstr.lean ====
section
/-! SUPPORT. A statement about every command's encoding, one lemma for each constructor. -/

namespace Sys2Proof.Laws.CommandWord

/-- R70, R74, R75: the command word of `i` is legal, its OPCODE field is the command's opcode and its RSV field is 0. -/
def Statement (i : Instr) : Prop :=
  i.wellFormed = true ∧ commandWordWellFormed (encode i) = true ∧ wordOpcode (encode i) = opcode i
    ∧ wordRsvNonzero (encode i) = false ∧ (opcode i, i) ∈ opcodeRows

theorem nop : Statement .nop := by unfold Statement; decide
theorem build : Statement .build := by unfold Statement; decide
theorem tblrd : Statement .tblrd := by unfold Statement; decide
theorem pdepT16 : Statement .pdepT16 := by unfold Statement; decide
theorem pdepT16Pt : Statement .pdepT16Pt := by unfold Statement; decide
theorem pdepT16Inv : Statement .pdepT16Inv := by unfold Statement; decide
theorem pdepT16InvPt : Statement .pdepT16InvPt := by unfold Statement; decide
theorem pdepT256 : Statement .pdepT256 := by unfold Statement; decide
theorem pdepT256Pt : Statement .pdepT256Pt := by unfold Statement; decide
theorem pdepT256Inv : Statement .pdepT256Inv := by unfold Statement; decide
theorem pdepT256InvPt : Statement .pdepT256InvPt := by unfold Statement; decide
theorem pextT16 : Statement .pextT16 := by unfold Statement; decide
theorem pextT16Pt : Statement .pextT16Pt := by unfold Statement; decide
theorem pextT16Inv : Statement .pextT16Inv := by unfold Statement; decide
theorem pextT16InvPt : Statement .pextT16InvPt := by unfold Statement; decide
theorem pextT256 : Statement .pextT256 := by unfold Statement; decide
theorem pextT256Pt : Statement .pextT256Pt := by unfold Statement; decide
theorem pextT256Inv : Statement .pextT256Inv := by unfold Statement; decide
theorem pextT256InvPt : Statement .pextT256InvPt := by unfold Statement; decide
theorem pdepVs : Statement .pdepVs := by unfold Statement; decide
theorem pextVs : Statement .pextVs := by unfold Statement; decide
theorem pextCf : Statement .pextCf := by unfold Statement; decide
theorem pdepRef : Statement .pdepRef := by unfold Statement; decide
theorem pextRef : Statement .pextRef := by unfold Statement; decide
theorem popcntRef : Statement .popcntRef := by unfold Statement; decide
theorem sel1Naive : Statement .sel1Naive := by unfold Statement; decide
theorem sel1Clear : Statement .sel1Clear := by unfold Statement; decide
theorem sel1Bsearch : Statement .sel1Bsearch := by unfold Statement; decide
theorem sel1Pdep : Statement .sel1Pdep := by unfold Statement; decide

end Sys2Proof.Laws.CommandWord
end

