-- ==== Sys2Proof/Laws/Run.lean ====
section
/-! SUPPORT. Runs of several steps: one lemma per way a run is extended or cut. -/

namespace Sys2Proof.Machine

@[simp] theorem run_zero (s : State) : run 0 s = .next s := rfl

/-- A run goes on from the state its first step gives. -/
theorem run_succ_next {s t : State} (k : Nat) (h : step s = .next t) : run (k + 1) s = run k t := by
  simp [run, h]

/-- A run of one step is a step. -/
@[simp] theorem run_one (s : State) : run 1 s = step s := by
  cases h : step s <;> simp [run, h]

/-- A run goes on from the state an earlier part of it gives. -/
theorem run_add_next {s t : State} {j : Nat} (k : Nat) (h : run j s = .next t) : run (j + k) s = run k t := by
  induction j generalizing s with
  | zero => cases h; rw [Nat.zero_add]
  | succ j ih =>
    cases hs : step s with
    | next u =>
      rw [run_succ_next j hs] at h
      rw [Nat.succ_add, run_succ_next _ hs, ih h]
    | fault f => simp [run, hs] at h
    | refused q => simp [run, hs] at h

/-- The model's runs are the host's. -/
theorem run_eq_core_run (k : Nat) (s : State) : run k s = Host.Core.run core k s := by
  induction k generalizing s with
  | zero => rfl
  | succ k ih =>
    cases h : step s with
    | next t => rw [run_succ_next k h, ih]; exact (by simp [Host.Core.run, core, h])
    | fault f => simp [run, Host.Core.run, core, h]
    | refused q => simp [run, Host.Core.run, core, h]

/-- What holds at the start and is kept by every step holds at the end of a run. -/
theorem run_induction {P : State → Prop} (keep : ∀ s t, P s → step s = .next t → P t) :
    ∀ {k : Nat} {s t : State}, P s → run k s = .next t → P t := by
  intro k
  induction k with
  | zero => intro s t h hr; cases hr; exact h
  | succ k ih =>
    intro s t h hr
    cases hs : step s with
    | next u => exact ih (keep s u h hs) (run_succ_next k hs ▸ hr)
    | fault f => simp [run, hs] at hr
    | refused q => simp [run, hs] at hr

@[simp] theorem lastOperands_nil (p : Word × Word) : lastOperands p [] = p := rfl

@[simp] theorem lastOperands_cons (p : Word × Word) (toA : Bool) (v : Word) (ws : List (Bool × Word)) :
    lastOperands p ((toA, v) :: ws) = lastOperands (if toA then (v, p.2) else (p.1, v)) ws := rfl

/-- An operand write stores its value and does nothing else, whatever BUSY is (R21, R22, R58). -/
theorem step_operandWrite {s : State} {w : Bool × Word} {rest : List Input} (h : s.inputs = operandWrite w :: rest) :
    step s = .next { s with
      opa := if w.1 then w.2 else s.opa
      opb := if w.1 then s.opb else w.2
      inputs := rest
      reply := .written } := by
  obtain ⟨toA, v⟩ := w
  rw [step_cons h]
  have hA : accessAccepted 0 8 = true ∧ regAt 0 = some .opa := ⟨rfl, rfl⟩
  have hB : accessAccepted 8 8 = true ∧ regAt 8 = some .opb := ⟨rfl, rfl⟩
  cases toA <;> simp [move, operandWrite, hostStep, hA, hB, windowWrite, writeReg]

end Sys2Proof.Machine
end

