-- ==== Sys2Proof/Tests/Slice0.lean ====
section
/-! SUPPORT. The model's own tests: the WellFormed smoke test, decoding of written-out words, one or two steps per
command with expected values from 95_test_vectors.md or by hand from the rules, and a witness for the hypotheses of
every obligation that has some. -/

namespace Sys2Proof.Machine

/-! WellFormed: an ill-formed term for each check. -/

theorem test_wellFormed_width : (HostAccess.read 0x20 4).widthOk = false ∧ (HostAccess.write 0x00 16 7).widthOk = false := by
  decide

theorem test_wellFormed_alignment : (HostAccess.read 0x04 8).alignedOk = false ∧ (HostAccess.write 0x1C 8 7).alignedOk = false := by
  decide

theorem test_wellFormed_range : (HostAccess.read 0x40 8).rangeOk = false ∧ (HostAccess.write 0x39 8 7).rangeOk = false := by
  decide

theorem test_wellFormed_access : (HostAccess.read 0x38 8).wellFormed = true ∧ (HostAccess.read 0x20 4).wellFormed = false
    ∧ (HostAccess.write 0x11 8 0).wellFormed = false ∧ (HostAccess.write 0x40 8 0).wellFormed = false := by decide

theorem test_wellFormed_word : commandWordWellFormed 0x53 = true ∧ commandWordWellFormed 0x54 = false
    ∧ commandWordWellFormed 0x110 = false ∧ commandWordWellFormed 0x8000000000000000 = false := by decide

/-! Decoding, each word written out from the OPCODE column of R74. -/

theorem test_decode_control :
    decodeWord 0x0000000000000000 = .ok .nop
      ∧ decodeWord 0x0000000000000001 = .ok .build
      ∧ decodeWord 0x0000000000000002 = .ok .tblrd := by decide

theorem test_decode_tablePdep :
    decodeWord 0x0000000000000010 = .ok .pdepT16
      ∧ decodeWord 0x0000000000000011 = .ok .pdepT16Pt
      ∧ decodeWord 0x0000000000000012 = .ok .pdepT16Inv
      ∧ decodeWord 0x0000000000000013 = .ok .pdepT16InvPt
      ∧ decodeWord 0x0000000000000014 = .ok .pdepT256
      ∧ decodeWord 0x0000000000000015 = .ok .pdepT256Pt
      ∧ decodeWord 0x0000000000000016 = .ok .pdepT256Inv
      ∧ decodeWord 0x0000000000000017 = .ok .pdepT256InvPt := by decide

theorem test_decode_tablePext :
    decodeWord 0x0000000000000018 = .ok .pextT16
      ∧ decodeWord 0x0000000000000019 = .ok .pextT16Pt
      ∧ decodeWord 0x000000000000001A = .ok .pextT16Inv
      ∧ decodeWord 0x000000000000001B = .ok .pextT16InvPt
      ∧ decodeWord 0x000000000000001C = .ok .pextT256
      ∧ decodeWord 0x000000000000001D = .ok .pextT256Pt
      ∧ decodeWord 0x000000000000001E = .ok .pextT256Inv
      ∧ decodeWord 0x000000000000001F = .ok .pextT256InvPt := by decide

theorem test_decode_shuffleAndClosedForm :
    decodeWord 0x0000000000000020 = .ok .pdepVs
      ∧ decodeWord 0x0000000000000021 = .ok .pextVs
      ∧ decodeWord 0x0000000000000030 = .ok .pextCf := by decide

theorem test_decode_oracle :
    decodeWord 0x0000000000000040 = .ok .pdepRef
      ∧ decodeWord 0x0000000000000041 = .ok .pextRef
      ∧ decodeWord 0x0000000000000042 = .ok .popcntRef := by decide

theorem test_decode_select1 :
    decodeWord 0x0000000000000050 = .ok .sel1Naive
      ∧ decodeWord 0x0000000000000051 = .ok .sel1Clear
      ∧ decodeWord 0x0000000000000052 = .ok .sel1Bsearch
      ∧ decodeWord 0x0000000000000053 = .ok .sel1Pdep := by decide

/-- R75: the neighbours of the assigned opcodes, and RSV ≠ 0. -/
theorem test_decode_illegal :
    decodeWord 0x03 = .error (.unassignedOpcode 0x03) ∧ decodeWord 0x0F = .error (.unassignedOpcode 0x0F)
      ∧ decodeWord 0x22 = .error (.unassignedOpcode 0x22) ∧ decodeWord 0x31 = .error (.unassignedOpcode 0x31)
      ∧ decodeWord 0x43 = .error (.unassignedOpcode 0x43) ∧ decodeWord 0x54 = .error (.unassignedOpcode 0x54)
      ∧ decodeWord 0xFF = .error (.unassignedOpcode 0xFF) ∧ decodeWord 0x8000000000000040 = .error .rsvNonzero := by decide

/-- R57: byte 0 of the access holds bits 7:0. -/
theorem test_decode_bytes : decodeBytes [0x20, 0, 0, 0, 0, 0, 0, 0] = .ok .pdepVs
    ∧ decodeBytes [0, 0, 0, 0, 0, 0, 0, 0x20] = .error .rsvNonzero ∧ decodeBytes [0x20] = .error (.wrongLength 1) := by decide

/-! One command on a small state. -/

/-- An idle PTE with the operands in OPA and OPB, TV as given and the listed bytes in TMEM. RESULT holds 0xEE. -/
def idle (tv : Bool) (cells : List (Nat × Byte)) (a b : Word) : State :=
  { State.reset with
    opa := a, opb := b, result := 0xEE, tv := tv
    tmem := cells.foldl (fun m c => m.write c.1 c.2) [] }

/-- RESULT, STATUS and ERR after the command word `w` is placed and runs. -/
def after (s : State) (w : Nat) : Option (Word × Word) :=
  match step (s.withFetchWord 64 w) with
  | .next t => some (t.result, statusWord t)
  | .fault _ => none
  | .refused _ => none

/-- R120: ERR is cleared, RESULT kept. -/
theorem test_nop :
    after (idle true
      []
      0x1 0x2) 0x00
      = some (0xEE, 0x02) := by decide +kernel

/-- R128: the four MemWrites for x = 5, y = 6 at W = 16, and for x = 0xA5, y = 0xF0 at W = 256 (V40, V52 to V55). -/
theorem test_build_writes :
    pairWrites .w16 5 6 = [(0x00056, 0x2), (0x00156, 0x2), (0x00265, 0x2), (0x00365, 0x2)]
      ∧ pairWrites .w256 0xA5 0xF0 = [(0x1A5F0, 0x50), (0x2A5F0, 0x0A), (0x3F0A5, 0x50), (0x4F0A5, 0x0A)] := by decide +kernel

/-- V42 to V51, V56 to V59: table bytes by offset from the table's base. -/
theorem test_build_entries :
    Table.entry .tp16 0xFF = 0xF ∧ Table.entry .tp16 0xBE = 0x6 ∧ Table.entry .tx16 0xBE = 0x5
      ∧ Table.entry .tpi16 0xEB = 0x6 ∧ Table.entry .txi16 0xEB = 0x5 ∧ Table.entry .p16 0xF = 0x4
      ∧ Table.entry .lp 0xBE = 0x6 ∧ Table.entry .lx 0xBE = 0x5 ∧ Table.entry .p256 0x09 = 0x2
      ∧ Table.entry .p256 0xFF = 0x8 ∧ Table.entry .tp256 0xFF81 = 0x81 ∧ Table.entry .tx256 0xFF81 = 0x03
      ∧ Table.entry .tpi256 0xF00F = 0xF0 ∧ Table.entry .txi256 0xFFFF = 0xFF := by decide +kernel

/-- V40: TP16[5][6], the byte zero-extended. -/
theorem test_tblrd :
    after (idle true
      [(0x00055, 0x99), (0x00056, 0x2), (0x00057, 0x98)]
      0x56 0xFF) 0x02
      = some (0x2, 0x02) := by decide +kernel

/-- R132: a bit above bit 19 counts. -/
theorem test_tblrd_badIndex :
    after (idle true
      [(0x00056, 0x2)]
      0x8000000000000056 0x0) 0x02
      = some (0xEE, 0x42) := by decide +kernel

/-- V10 (a = 0x5, mask = 0x16), the entries of R153's example. -/
theorem test_pdepT16 :
    after (idle true
      [(0x00000, 0x0), (0x00011, 0x1), (0x00056, 0x2)]
      0x5 0x16) 0x10
      = some (0x12, 0x02) := by decide +kernel

/-- V10, popcounts from P16. -/
theorem test_pdepT16Pt :
    after (idle true
      [(0x00000, 0x0), (0x00011, 0x1), (0x00056, 0x2), (0x00400, 0x0), (0x00401, 0x1), (0x00406, 0x2)]
      0x5 0x16) 0x11
      = some (0x12, 0x02) := by decide +kernel

/-- V10, entries TPI16[b][v]. -/
theorem test_pdepT16Inv :
    after (idle true
      [(0x00200, 0x0), (0x00211, 0x1), (0x00265, 0x2)]
      0x5 0x16) 0x12
      = some (0x12, 0x02) := by decide +kernel

/-- V10, entries TPI16[b][v], popcounts from P16. -/
theorem test_pdepT16InvPt :
    after (idle true
      [(0x00200, 0x0), (0x00211, 0x1), (0x00265, 0x2), (0x00400, 0x0), (0x00401, 0x1), (0x00406, 0x2)]
      0x5 0x16) 0x13
      = some (0x12, 0x02) := by decide +kernel

/-- V60: the walk's eight entries as the spec lists them. -/
theorem test_pdepT256 :
    after (idle true
      [(0x1BEFF, 0xBE), (0x1BA00, 0x0), (0x1BAFF, 0xBA), (0x1FE00, 0x0), (0x1FEFF, 0xFE), (0x1CA00, 0x0), (0x1CAFF, 0xCA), (0x1EF00, 0x0)]
      0xDEADBEEFCAFEBABE 0xFF00FF00FF00FF) 0x14
      = some (0xCA00FE00BA00BE, 0x02) := by decide +kernel

/-- V60, popcounts from P256. -/
theorem test_pdepT256Pt :
    after (idle true
      [(0x1BEFF, 0xBE), (0x1BA00, 0x0), (0x1BAFF, 0xBA), (0x1FE00, 0x0), (0x1FEFF, 0xFE), (0x1CA00, 0x0), (0x1CAFF, 0xCA), (0x1EF00, 0x0), (0x00700, 0x0), (0x007FF, 0x8)]
      0xDEADBEEFCAFEBABE 0xFF00FF00FF00FF) 0x15
      = some (0xCA00FE00BA00BE, 0x02) := by decide +kernel

/-- V60, entries TPI256[b][v]. -/
theorem test_pdepT256Inv :
    after (idle true
      [(0x3FFBE, 0xBE), (0x300BA, 0x0), (0x3FFBA, 0xBA), (0x300FE, 0x0), (0x3FFFE, 0xFE), (0x300CA, 0x0), (0x3FFCA, 0xCA), (0x300EF, 0x0)]
      0xDEADBEEFCAFEBABE 0xFF00FF00FF00FF) 0x16
      = some (0xCA00FE00BA00BE, 0x02) := by decide +kernel

/-- V60, entries TPI256[b][v], popcounts from P256. -/
theorem test_pdepT256InvPt :
    after (idle true
      [(0x3FFBE, 0xBE), (0x300BA, 0x0), (0x3FFBA, 0xBA), (0x300FE, 0x0), (0x3FFFE, 0xFE), (0x300CA, 0x0), (0x3FFCA, 0xCA), (0x300EF, 0x0), (0x00700, 0x0), (0x007FF, 0x8)]
      0xDEADBEEFCAFEBABE 0xFF00FF00FF00FF) 0x17
      = some (0xCA00FE00BA00BE, 0x02) := by decide +kernel

/-- R170 by hand: the three selected bits are 1; TX16[15][6] = 3, TX16[15][1] = 1. -/
theorem test_pextT16 :
    after (idle true
      [(0x001F0, 0x0), (0x001F1, 0x1), (0x001F6, 0x3)]
      0xFFFFFFFFFFFFFFFF 0x16) 0x18
      = some (0x7, 0x02) := by decide +kernel

/-- The same with popcounts from P16. -/
theorem test_pextT16Pt :
    after (idle true
      [(0x001F0, 0x0), (0x001F1, 0x1), (0x001F6, 0x3), (0x00400, 0x0), (0x00401, 0x1), (0x00406, 0x2)]
      0xFFFFFFFFFFFFFFFF 0x16) 0x19
      = some (0x7, 0x02) := by decide +kernel

/-- The same, entries TXI16[b][v]. -/
theorem test_pextT16Inv :
    after (idle true
      [(0x0030F, 0x0), (0x0031F, 0x1), (0x0036F, 0x3)]
      0xFFFFFFFFFFFFFFFF 0x16) 0x1A
      = some (0x7, 0x02) := by decide +kernel

/-- The same, entries TXI16[b][v], popcounts from P16. -/
theorem test_pextT16InvPt :
    after (idle true
      [(0x0030F, 0x0), (0x0031F, 0x1), (0x0036F, 0x3), (0x00400, 0x0), (0x00401, 0x1), (0x00406, 0x2)]
      0xFFFFFFFFFFFFFFFF 0x16) 0x1B
      = some (0x7, 0x02) := by decide +kernel

/-- V20: TX256[v][0xFF] = v and TX256[v][0] = 0. -/
theorem test_pextT256 :
    after (idle true
      [(0x2BEFF, 0xBE), (0x2BA00, 0x0), (0x2FEFF, 0xFE), (0x2CA00, 0x0), (0x2EFFF, 0xEF), (0x2BE00, 0x0), (0x2ADFF, 0xAD), (0x2DE00, 0x0)]
      0xDEADBEEFCAFEBABE 0xFF00FF00FF00FF) 0x1C
      = some (0xADEFFEBE, 0x02) := by decide +kernel

/-- V20, popcounts from P256. -/
theorem test_pextT256Pt :
    after (idle true
      [(0x2BEFF, 0xBE), (0x2BA00, 0x0), (0x2FEFF, 0xFE), (0x2CA00, 0x0), (0x2EFFF, 0xEF), (0x2BE00, 0x0), (0x2ADFF, 0xAD), (0x2DE00, 0x0), (0x00700, 0x0), (0x007FF, 0x8)]
      0xDEADBEEFCAFEBABE 0xFF00FF00FF00FF) 0x1D
      = some (0xADEFFEBE, 0x02) := by decide +kernel

/-- V20, entries TXI256[b][v]. -/
theorem test_pextT256Inv :
    after (idle true
      [(0x4FFBE, 0xBE), (0x400BA, 0x0), (0x4FFFE, 0xFE), (0x400CA, 0x0), (0x4FFEF, 0xEF), (0x400BE, 0x0), (0x4FFAD, 0xAD), (0x400DE, 0x0)]
      0xDEADBEEFCAFEBABE 0xFF00FF00FF00FF) 0x1E
      = some (0xADEFFEBE, 0x02) := by decide +kernel

/-- V20, entries TXI256[b][v], popcounts from P256. -/
theorem test_pextT256InvPt :
    after (idle true
      [(0x4FFBE, 0xBE), (0x400BA, 0x0), (0x4FFFE, 0xFE), (0x400CA, 0x0), (0x4FFEF, 0xEF), (0x400BE, 0x0), (0x4FFAD, 0xAD), (0x400DE, 0x0), (0x00700, 0x0), (0x007FF, 0x8)]
      0xDEADBEEFCAFEBABE 0xFF00FF00FF00FF) 0x1F
      = some (0xADEFFEBE, 0x02) := by decide +kernel

/-- The 16 bytes of a lane vector and P16[0], P16[1], P16[6]. -/
def laneCells (base : Nat) (bytes : List Byte) : List (Nat × Byte) :=
  (List.range' base bytes.length).zip bytes

/-- The rows LP[0], LP[1] and LP[5], by hand from R101 and R126. -/
def lpRows : List (Nat × Byte) :=
  laneCells 0x500 [0, 0, 0, 0, 0, 0, 0, 0, 0, 0, 0, 0, 0, 0, 0, 0]
    ++ laneCells 0x510 [0, 1, 2, 1, 4, 1, 2, 1, 8, 1, 2, 1, 4, 1, 2, 1]
    ++ laneCells 0x550 [0, 1, 2, 1, 4, 1, 2, 5, 8, 1, 2, 9, 4, 9, 10, 5]

/-- The row LX[15], by hand from R102 and R127. -/
def lxRow : List (Nat × Byte) := laneCells 0x6F0 [0, 1, 1, 3, 1, 3, 3, 7, 1, 3, 3, 7, 3, 7, 7, 15]

/-- V10 (R193's example). -/
theorem test_pdepVs :
    after (idle true (lpRows ++ [(0x00400, 0), (0x00401, 1), (0x00406, 2)]) 0x5 0x16) 0x20 = some (0x12, 0x02) := by
  decide +kernel

/-- By hand from R194: six selected bits, all 1, over two lanes. -/
theorem test_pextVs :
    after (idle true (lxRow ++ [(0x00400, 0), (0x00401, 1), (0x00406, 2)]) 0xFFFFFFFFFFFFFFFF 0x1616) 0x21
      = some (0x3F, 0x02) := by decide +kernel

/-- V13; TV = 0 does not matter. -/
theorem test_pextCf :
    after (idle false
      []
      0x123456789ABCDEF0 0xF0F0F0F0F0F0F0F0) 0x30
      = some (0x13579BDF, 0x00) := by decide +kernel

/-- V13; TV = 0 does not matter. -/
theorem test_pdepRef :
    after (idle false
      []
      0x123456789ABCDEF0 0xF0F0F0F0F0F0F0F0) 0x40
      = some (0x90A0B0C0D0E0F000, 0x00) := by decide +kernel

/-- V27. -/
theorem test_pextRef :
    after (idle false
      []
      0x123456789ABCDEF 0xAAAAAAAAAAAAAAAA) 0x41
      = some (0x505AFAF, 0x00) := by decide +kernel

/-- V31: the only count that needs 7 bits. -/
theorem test_popcntRef :
    after (idle false
      []
      0xFFFFFFFFFFFFFFFF 0x5) 0x42
      = some (0x40, 0x00) := by decide +kernel

/-- V2. -/
theorem test_sel1Naive :
    after (idle false
      []
      0x5A 0x2) 0x50
      = some (0x4, 0x00) := by decide +kernel

/-- V2's word has four set bits, so rank 4 gives the sentinel (R103). -/
theorem test_sel1Naive_sentinel :
    after (idle false
      []
      0x5A 0x4) 0x50
      = some (0xFFFFFFFFFFFFFFFF, 0x00) := by decide +kernel

/-- V2. -/
theorem test_sel1Clear :
    after (idle false
      []
      0x5A 0x2) 0x51
      = some (0x4, 0x00) := by decide +kernel

/-- V2's word has four set bits, so rank 4 gives the sentinel (R103). -/
theorem test_sel1Clear_sentinel :
    after (idle false
      []
      0x5A 0x4) 0x51
      = some (0xFFFFFFFFFFFFFFFF, 0x00) := by decide +kernel

/-- V2. -/
theorem test_sel1Bsearch :
    after (idle false
      []
      0x5A 0x2) 0x52
      = some (0x4, 0x00) := by decide +kernel

/-- R223: the top bit is found. -/
theorem test_sel1Bsearch_top :
    after (idle false
      []
      0x8000000000000000 0x0) 0x52
      = some (0x3F, 0x00) := by decide +kernel

/-- V2. -/
theorem test_sel1Pdep :
    after (idle false
      []
      0x5A 0x2) 0x53
      = some (0x4, 0x00) := by decide +kernel

/-- V2's word has four set bits, so rank 4 gives the sentinel (R103). -/
theorem test_sel1Pdep_sentinel :
    after (idle false
      []
      0x5A 0x4) 0x53
      = some (0xFFFFFFFFFFFFFFFF, 0x00) := by decide +kernel

/-- R220: k = 64 is K_RANGE, not the sentinel. -/
theorem test_kRange :
    after (idle false
      []
      0x5A 0x40) 0x50
      = some (0xEE, 0x30) := by decide +kernel

/-- R220: k = -1. -/
theorem test_kRange_negative :
    after (idle false
      []
      0x5A 0xFFFFFFFFFFFFFFFF) 0x53
      = some (0xEE, 0x30) := by decide +kernel

/-- R244. -/
theorem test_notBuilt :
    after (idle false
      []
      0x5 0x16) 0x10
      = some (0xEE, 0x20) := by decide +kernel

/-- R75. -/
theorem test_illegalOp :
    after (idle false
      []
      0x5 0x16) 0x54
      = some (0xEE, 0x10) := by decide +kernel

/-! The window, reset and a whole CALL. -/

/-- R25: STATUS with BUSY, TV, OVR and ERR = 4 set. -/
theorem test_statusWord :
    statusWord { State.reset with busy := true, tv := true, ovr := true, err := .badIndex } = 0x47 := by decide

/-- R31: a CMD write while BUSY = 1 sets OVR and keeps the latches. -/
theorem test_dropped_command :
    (requestCommand { State.reset with busy := true, lop := 0x40, opa := 9 } 0x41).ovr = true
      ∧ (requestCommand { State.reset with busy := true, lop := 0x40, opa := 9 } 0x41).lop = 0x40
      ∧ (requestCommand { State.reset with busy := true, lop := 0x40, opa := 9 } 0x41).la = 0 := by decide

/-- R31, R75: BUILD's opcode with RSV ≠ 0 is no BUILD, so its acceptance keeps TV. -/
theorem test_accept_build_with_rsv :
    (requestCommand { State.reset with tv := true } 0x101).tv = true
      ∧ (requestCommand { State.reset with tv := true } 0x001).tv = false := by decide

/-! Witnesses: for every obligation with hypotheses, states and operands that meet them. -/

/-- A PTE after BUILD: TV = 1 and the tables in TMEM. -/
def built : State := { State.reset with tv := true, tmem := tableImage }

theorem onlyBacked_tableImage : OnlyBacked tableImage := fun _ hc => tableImage_backed hc

theorem inv_built (inputs : List Input) : Inv { built with inputs := inputs } :=
  ⟨tableImage_wf, onlyBacked_tableImage, fun _ => tableImage_tablesHold, fun h => (nomatch h)⟩

theorem inv_reset (inputs : List Input) : Inv { State.reset with inputs := inputs } :=
  ⟨List.Pairwise.nil, fun _ hc => (nomatch hc), fun h => (nomatch h), fun h => (nomatch h)⟩

/-- A PTE after BUILD with PDEP.T16 in flight. -/
def walking (inputs : List Input) : State := { built with busy := true, lop := 0x10, inputs := inputs }

theorem inv_walking (inputs : List Input) : Inv (walking inputs) :=
  ⟨tableImage_wf, onlyBacked_tableImage, fun _ => tableImage_tablesHold, fun _ _ h => absurd (show (0x10 : BitVec 8) = 0x01 from h) (by decide)⟩

theorem witness_OnlyCommandWordsDecode :
    (∀ i, (0x03 : Word) ≠ encode i) ∧ (∀ i, (0x110 : Word) ≠ encode i) ∧ (0x53 : Word) = encode .sel1Pdep :=
  ⟨fun i => by cases i <;> decide, fun i => by cases i <;> decide, rfl⟩

theorem witness_ResetInputAbandonsTheCommand :
    ({ State.reset with busy := true, lop := 0x01, inputs := [.reset, .engine, .engine] } : State).inputs
      = .reset :: List.replicate 2 .engine ++ [] := rfl

theorem witness_OnlyAlignedEightByteAccessesAreAccepted :
    (∃ s : State, s.inputs = [.host (.read 0x38 8)]) ∧ (8 = 8 ∧ 0x38 % 8 = 0 ∧ 0x38 < 0x40)
      ∧ (∃ s : State, s.inputs = [.host (.write 0x40 8 7)]) ∧ ¬(8 = 8 ∧ 0x40 % 8 = 0 ∧ 0x40 < 0x40)
      ∧ ¬(4 = 8 ∧ 0x38 % 8 = 0 ∧ 0x38 < 0x40) ∧ ¬(8 = 8 ∧ 0x04 % 8 = 0 ∧ 0x04 < 0x40) :=
  ⟨⟨{ State.reset with inputs := [.host (.read 0x38 8)] }, rfl⟩, by decide,
    ⟨{ State.reset with inputs := [.host (.write 0x40 8 7)] }, rfl⟩, by decide, by decide, by decide⟩

theorem witness_HostReadReturnsTheRegister :
    (∃ s : State, s.inputs = [.host (.read 0x00 8)]) ∧ (∃ s : State, s.inputs = [.host (.read 0x38 8)])
      ∧ (0x00, State.reset.opa) ∈ [(0x00, State.reset.opa), (0x38, (0 : Word))] :=
  ⟨⟨{ State.reset with inputs := [.host (.read 0x00 8)] }, rfl⟩,
    ⟨{ State.reset with inputs := [.host (.read 0x38 8)] }, rfl⟩, by decide⟩

theorem witness_OperandWriteThenReadReturnsTheValue :
    (∃ s : State, s.busy = true ∧ s.inputs = [.host (.write 0x00 8 5), .host (.read 0x00 8)])
      ∧ ∃ s : State, s.inputs = [.host (.write 0x08 8 5), .host (.read 0x08 8)] :=
  ⟨⟨{ State.reset with busy := true, inputs := [.host (.write 0x00 8 5), .host (.read 0x00 8)] }, rfl, rfl⟩,
    ⟨{ State.reset with inputs := [.host (.write 0x08 8 5), .host (.read 0x08 8)] }, rfl⟩⟩

theorem witness_ReadOnlyAndReservedWritesAreIgnored :
    (∃ s : State, s.inputs = [.host (.write 0x18 8 5)]) ∧ 0x18 ∈ [0x18, 0x20, 0x28, 0x30, 0x38]
      ∧ (∃ s : State, s.inputs = [.host (.write 0x38 8 5)]) ∧ 0x38 ∈ [0x18, 0x20, 0x28, 0x30, 0x38] :=
  ⟨⟨{ State.reset with inputs := [.host (.write 0x18 8 5)] }, rfl⟩, by decide,
    ⟨{ State.reset with inputs := [.host (.write 0x38 8 5)] }, rfl⟩, by decide⟩

theorem witness_CommandWriteIsAcceptedOrDropped :
    (∃ s : State, s.busy = true ∧ s.inputs = [.host (.write 0x10 8 0x40)])
      ∧ ∃ s : State, s.busy = false ∧ s.inputs = [.host (.write 0x10 8 0x01)] :=
  ⟨⟨{ State.reset with busy := true, inputs := [.host (.write 0x10 8 0x40)] }, rfl, rfl⟩,
    ⟨{ State.reset with inputs := [.host (.write 0x10 8 0x01)] }, rfl, rfl⟩⟩

theorem witness_EngineTurnRunsTheDecodedCommand :
    (walking []).busy = true ∧ decodeLatched (walking []).lop (walking []).lrsv = .ok .pdepT16
      ∧ (walking []).inputs = [] ∧ (walking [.engine, .reset]).inputs = .engine :: [.reset] := ⟨rfl, rfl, rfl, rfl⟩

theorem witness_IdleEngineKeepsAllState :
    State.reset.busy = false ∧ State.reset.inputs = [] ∧ ({ State.reset with inputs := [.engine] } : State).inputs = [.engine] :=
  ⟨rfl, rfl, rfl⟩

theorem witness_IssuedCommandRunsOnLatchedOperands :
    ∃ s : State, s.busy = false ∧ s.inputs = .host (.write 0x10 8 (encode .build)) :: .engine :: [] :=
  ⟨{ State.reset with inputs := [.host (.write 0x10 8 0x01), .engine] }, rfl, rfl⟩

theorem witness_IllegalWordCompletesWithIllegalOp :
    (∃ s : State, s.busy = false ∧ s.inputs = .host (.write 0x10 8 0x54) :: .engine :: []) ∧ ∀ i, (0x54 : Word) ≠ encode i :=
  ⟨⟨{ State.reset with inputs := [.host (.write 0x10 8 0x54), .engine] }, rfl, rfl⟩, fun i => by cases i <;> decide⟩

theorem witness_BuildLeavesWhatItsMemWritesLeave :
    Memory.wf built.tmem ∧ OnlyBacked built.tmem ∧ Memory.wf State.reset.tmem ∧ OnlyBacked State.reset.tmem :=
  ⟨tableImage_wf, onlyBacked_tableImage, (inv_reset []).canonical, (inv_reset []).backed⟩

theorem witness_RepeatedBuildLeavesTheTablesUnchanged :
    ∃ s : State, Inv s ∧ s.busy = false ∧ s.tv = true
      ∧ s.inputs = .host (.write 0x10 8 (encode .build)) :: .engine :: [] :=
  ⟨{ built with inputs := .host (.write 0x10 8 (encode .build)) :: .engine :: [] }, inv_built _, rfl, rfl, rfl⟩

theorem witness_TblrdReadsOneByteOfTmem :
    State.reset.tv = false ∧ built.tv = true
      ∧ (∀ a ∈ [0x410, 0x4FF, 0x800, 0xFFFF, 0x50000], 0x50000 ≤ a ∨ (0x00410 ≤ a ∧ a ≤ 0x004FF) ∨ (0x00800 ≤ a ∧ a ≤ 0x0FFFF))
      ∧ (∀ a ∈ [0x0, 0x40F, 0x500, 0x7FF, 0x10000, 0x4FFFF],
        ¬(0x50000 ≤ a ∨ (0x00410 ≤ a ∧ a ≤ 0x004FF) ∨ (0x00800 ≤ a ∧ a ≤ 0x0FFFF)))
      ∧ built.tmem.read 0x4FFFF = some (Table.entry .txi256 0xFFFF)
      ∧ built.tmem.read 0x40F = some (Table.entry .p16 0xF) :=
  ⟨rfl, rfl, by decide, by decide, tableImage_read .txi256 (o := 0xFFFF) (by decide), tableImage_read .p16 (o := 0xF) (by decide)⟩

theorem witness_TablesHaveTheObservableProperties : Inv built ∧ built.tv = true := ⟨inv_built [], rfl⟩

theorem witness_TmemAccessesAreLittleEndian :
    ∀ i < 2, readByte [(0x00056, 0x34), (0x00057, 0x12)] (0x00056 + i) = .ok (if i = 0 then 0x34 else 0x12) := by decide

theorem witness_NoEngineReadsAHole :
    ∃ s : State, s.tv = true ∧ tmemHole s.la.toNat = true := ⟨{ built with la := 0x410 }, rfl, by decide⟩

/-- Both clauses of the three statements on table-reading commands and of OrientationAndPopSourceDoNotMatter. -/
theorem witness_TableCommands :
    built.tv = true ∧ TablesHold built.tmem ∧ State.reset.tv = false := ⟨rfl, tableImage_tablesHold, rfl⟩

theorem witness_CommandsReadOnlyTheirTables :
    (∀ u ∈ tablesRead .popcntRef, ∀ o < u.size, tableImage.read (u.base + o) = State.reset.tmem.read (u.base + o))
      ∧ (∃ t, exec .popcntRef State.reset = .next t)
      ∧ (∀ u ∈ tablesRead .pdepT16, ∀ o < u.size, tableImage.read (u.base + o) = built.tmem.read (u.base + o)) :=
  ⟨fun _ h => (nomatch h), ⟨_, rfl⟩, fun _ _ _ _ => rfl⟩

theorem witness_ReferenceFunctions :
    (5 : Word).toNat < ChunkWidth.w16.values ∧ (0xF : Word).toNat < ChunkWidth.w16.values
      ∧ (0xFF : Word).toNat < ChunkWidth.w256.values ∧ (0x16 : Word).getLsbD 4 = true
      ∧ popcount (0x5A : Word) ≤ 4 ∧ popcount (0x5A : Word) ≤ 63 ∧ 0 < popcount (0x5A : Word) ∧ 3 < popcount (0x5A : Word)
      ∧ (0x50 : Word) ≠ 0 := by decide +kernel

theorem witness_Select1CommandsAgree :
    (∃ s : State, s.lb = 0 ∧ 0 ≤ s.lb.toInt ∧ s.lb.toInt ≤ 63) ∧ ∃ s : State, s.lb = 63 ∧ 0 ≤ s.lb.toInt ∧ s.lb.toInt ≤ 63 :=
  ⟨⟨State.reset, rfl, by decide, by decide⟩, ⟨{ State.reset with lb := 63 }, rfl, by decide, by decide⟩⟩

theorem witness_RankOutOfRangeCompletesWithKRange :
    ({ State.reset with lb := 0xFFFFFFFFFFFFFFFF } : State).lb.toInt < 0
      ∧ 63 < ({ State.reset with lb := 64 } : State).lb.toInt := by decide

theorem witness_OnlyTableReadingCommandsNeedTheTables :
    State.reset.tv = false ∧ exec .nop State.reset = .next (complete State.reset .ok none)
      ∧ ∃ t, exec .build State.reset = .next t := ⟨rfl, rfl, ⟨_, rfl⟩⟩

/-- One completion for each value of the priority list. -/
theorem witness_CompletionErrIsTheFirstInPriority :
    ∀ c ∈ [((0x54 : BitVec 8), false, (0 : Word), ErrCode.illegalOp), (0x02, false, 0, .notBuilt), (0x50, false, 64, .kRange),
        (0x00, false, 0, .ok), (0x02, true, 0, .badIndex)],
      ∃ s t : State, completesNext s = true ∧ step s = .next t ∧ s.lop = c.1 ∧ s.tv = c.2.1 ∧ s.lb = c.2.2.1
        ∧ t.err = c.2.2.2 := by
  intro c hc
  simp only [List.mem_cons, List.not_mem_nil, or_false] at hc
  rcases hc with rfl | rfl | rfl | rfl | rfl
  · exact ⟨{ State.reset with busy := true, lop := 0x54 }, _, rfl, rfl, rfl, rfl, rfl, rfl⟩
  · exact ⟨{ State.reset with busy := true, lop := 0x02, la := 0x410 }, _, rfl, rfl, rfl, rfl, rfl, rfl⟩
  · exact ⟨{ State.reset with busy := true, lop := 0x50, lb := 64 }, _, rfl, rfl, rfl, rfl, rfl, rfl⟩
  · exact ⟨{ State.reset with busy := true }, _, rfl, rfl, rfl, rfl, rfl, rfl⟩
  · exact ⟨{ State.reset with busy := true, tv := true, lop := 0x02, la := 0x410 }, _, rfl, rfl, rfl, rfl, rfl, rfl⟩

theorem witness_ErrorsHaveNoSideEffect :
    exec .tblrd State.reset = .next (completeError State.reset .notBuilt)
      ∧ (completeError State.reset .notBuilt).err ≠ .ok
      ∧ ∃ s t : State, dropsNext s ∧ step s = .next t :=
  ⟨rfl, by decide, { State.reset with busy := true, inputs := [.host (.write 0x10 8 0x40)] }, _,
    ⟨rfl, 0x40, [], rfl⟩, rfl⟩

theorem witness_CommandFrame :
    Instr.pextRef ≠ .build ∧ (∃ t, exec .pextRef State.reset = .next t ∧ t.err = .ok)
      ∧ (∃ t, exec .sel1Clear { State.reset with lb := 64 } = .next t ∧ t.err ≠ .ok)
      ∧ ∃ t, exec .nop State.reset = .next t :=
  ⟨by decide, ⟨_, rfl, rfl⟩, ⟨_, rfl, by decide⟩, ⟨_, rfl⟩⟩

theorem witness_BuildFrame :
    (∃ t, exec .build State.reset = .next t) ∧ OnlyBacked State.reset.tmem ∧ ∀ c ∈ buildWrites, 0x410 ≠ c.1 := by
  refine ⟨⟨_, rfl⟩, (inv_reset []).backed, fun c hc => ?_⟩
  simp only [buildWrites, widthWrites, laneWrites, pairWrites, List.mem_append, List.mem_flatMap, List.mem_map, List.mem_range,
    List.mem_cons, List.not_mem_nil, or_false, ChunkWidth.values, ChunkWidth.bits, pdepTable, pextTable, popTable, Table.base] at hc
  rcases hc with ((⟨x, hx, y, hy, rfl | rfl | rfl | rfl⟩ | ⟨y, hy, rfl⟩) | ⟨x, hx, y, hy, rfl | rfl | rfl | rfl⟩ | ⟨y, hy, rfl⟩)
    | ⟨x, hx, y, hy, rfl | rfl⟩ <;> simp only [ne_eq] <;> omega

/-- Steps that change BUSY, TV, OVR, ERR, OPA, RESULT and a latch: an acceptance, a completion, a dropped write, an operand
write and a reset. -/
theorem witness_OnlyTheListedEventsChange :
    (∃ t, step { built with inputs := [.host (.write 0x10 8 0x01)] } = .next t ∧ t.busy ≠ built.busy ∧ t.tv ≠ built.tv
      ∧ t.lop ≠ built.lop)
    ∧ (∃ t, step { State.reset with busy := true, lop := 0x42, la := 7 } = .next t ∧ t.busy = false ∧ t.result = 3)
    ∧ (∃ t, step { State.reset with busy := true, lop := 0x01 } = .next t ∧ t.busy = false)
    ∧ (∃ t, step { State.reset with busy := true, lop := 0x54 } = .next t ∧ t.err ≠ State.reset.err)
    ∧ (∃ t, step { State.reset with busy := true, inputs := [.host (.write 0x10 8 0x40)] } = .next t ∧ t.ovr ≠ State.reset.ovr)
    ∧ (∃ t, step { State.reset with inputs := [.host (.write 0x00 8 9)] } = .next t ∧ t.opa ≠ State.reset.opa)
    ∧ ∃ t, step { built with ovr := true, opa := 9, result := 4, la := 6, inputs := [.reset] } = .next t
      ∧ t.ovr = false ∧ t.opa ≠ 9 ∧ t.result ≠ 4 ∧ t.la ≠ 6 ∧ t.tmem = [] := by
  refine ⟨⟨_, rfl, ?_, ?_, ?_⟩, ⟨_, rfl, rfl, ?_⟩, ?_, ⟨_, rfl, ?_⟩, ⟨_, rfl, ?_⟩, ⟨_, rfl, ?_⟩,
    ⟨_, rfl, rfl, by decide, by decide, by decide, rfl⟩⟩ <;> try decide
  refine ⟨_, rfl, ?_⟩
  split <;> rfl

theorem witness_EveryStepKeepsTheInvariant :
    ∃ s t : State, Inv s ∧ step s = .next t ∧ s.busy = true ∧ s.tv = true :=
  ⟨walking [.host (.read 0x20 8)], _, inv_walking _, rfl, rfl, rfl⟩

theorem witness_EveryCommandCompletesInSoundStates :
    (built.tv = true → TablesHold built.tmem) ∧ (State.reset.tv = true → TablesHold State.reset.tmem) :=
  ⟨fun _ => tableImage_tablesHold, fun h => (nomatch h)⟩

theorem witness_OnlyRejectedAccessesStopTheMachine : Inv built ∧ Inv { built with inputs := [.host (.read 0x20 4)] } :=
  ⟨inv_built [], inv_built _⟩

theorem witness_HiddenResetContentsAreUnobservable : State.reset.busy = false ∧ State.reset.tv = false := ⟨rfl, rfl⟩

/-- PEXT.REF in flight completes; a table command whose tables were never written stops. -/
theorem witness_OperandWritesDoNotReachTheCommandInFlight :
    (∃ s t : State, s.busy = true ∧ decodeLatched s.lop s.lrsv = .ok .pextRef
      ∧ s.inputs = [(true, (1 : Word)), (false, 2), (true, 3)].map operandWrite ++ .engine :: []
      ∧ exec .pextRef { s with inputs := [] } = .next t)
    ∧ (∃ s : State, s.busy = true ∧ decodeLatched s.lop s.lrsv = .ok .pdepT16
      ∧ s.inputs = [(false, (2 : Word))].map operandWrite ++ .engine :: []
      ∧ exec .pdepT16 { s with inputs := [] } = .fault (.tmemUnwritten 0))
    ∧ lastOperands (7, 8) [] = (7, 8) ∧ lastOperands (7, 8) [(true, 1), (true, 3)] = (3, 8)
    ∧ lastOperands (7, 8) [(false, 2)] = (7, 2) :=
  ⟨⟨{ State.reset with
      busy := true, lop := 0x41
      inputs := [(true, (1 : Word)), (false, 2), (true, 3)].map operandWrite ++ .engine :: [] }, _, rfl, rfl, rfl, rfl⟩,
    ⟨{ State.reset with
      busy := true, tv := true, lop := 0x10
      inputs := [(false, (2 : Word))].map operandWrite ++ .engine :: [] }, rfl, rfl, rfl, rfl⟩, rfl, rfl, rfl⟩

theorem witness_CommandInFlightCompletes :
    let s := walking [.host (.read 0x20 8), .host (.write 0x10 8 0x40)]
    Inv s ∧ s.busy = true ∧ (∀ h ∈ [HostAccess.read 0x20 8, .write 0x10 8 0x40], h.wellFormed = true)
      ∧ s.inputs = [HostAccess.read 0x20 8, .write 0x10 8 0x40].map Input.host :=
  ⟨inv_walking _, rfl, by decide, rfl⟩

theorem witness_BackToBackCommandsHaveBothOutcomes :
    (∃ s : State, s.busy = false ∧ s.inputs = .host (hostIssue .pdepRef) :: .engine :: .host (hostIssue .pextRef) :: .engine
        :: .host (hostLd .result) :: [])
    ∧ ∃ s : State, s.busy = false ∧ s.inputs = .host (hostIssue .pdepRef) :: .host (hostIssue .pextRef) :: .engine
        :: .host (hostLd .result) :: [] :=
  ⟨⟨{ State.reset with
        inputs := .host (hostIssue .pdepRef) :: .engine :: .host (hostIssue .pextRef) :: .engine
          :: .host (hostLd .result) :: [] }, rfl, rfl⟩,
    ⟨{ State.reset with
        inputs := .host (hostIssue .pdepRef) :: .host (hostIssue .pextRef) :: .engine
          :: .host (hostLd .result) :: [] }, rfl, rfl⟩⟩

theorem witness_CallReturnsTheOracleValue :
    ∃ s : State, Inv s ∧ s.busy = false ∧ s.tv = true ∧ s.inputs = callMoves .pextVs 5 0x16 3 ++ [] :=
  ⟨{ built with inputs := callMoves .pextVs 5 0x16 3 ++ [] }, inv_built _, rfl, rfl, rfl⟩

end Sys2Proof.Machine
end

/-! PROOFS. The loops of `pdep` and `pext` (40_reference.md R101, R102) after some of their turns, bit by bit, and
how a block of turns is the loop of a chunk (R109). -/

namespace Sys2Proof.Machine

/-! Counts (R100). -/

theorem popcount_le (v : Word) : popcount v ≤ 64 := by
  rw [popcount_eq_setWidth]
  exact popcount_setWidth_le v (Nat.le_refl 64)

/-- The set bits below `c + k` are those below `c` and those of the `k` bits from `c` on. -/
theorem popcount_setWidth_add {m b : Word} {c k : Nat} (hck : c + k ≤ 64)
    (hb : ∀ j < k, b.getLsbD j = m.getLsbD (c + j)) :
    popcount (m.setWidth (c + k)) = popcount (m.setWidth c) + popcount (b.setWidth k) := by
  induction k with
  | zero => simp
  | succ k ih =>
    rw [← Nat.add_assoc, popcount_setWidth_succ m (by omega), ih (by omega) fun j hj => hb j (by omega),
      popcount_setWidth_succ b (by omega), hb k (by omega), Nat.add_assoc]

/-- Bits that are 0 from `k` on do not count. -/
theorem popcount_setWidth_of_zero_above {b : Word} {k : Nat} (hb : ∀ j, k ≤ j → b.getLsbD j = false) {n : Nat}
    (hkn : k ≤ n) (hn : n ≤ 64) : popcount (b.setWidth n) = popcount (b.setWidth k) := by
  induction n, hkn using Nat.le_induction with
  | base => rfl
  | succ n hkn ih => rw [popcount_setWidth_succ b (by omega), ih (by omega), hb n hkn]; rfl

/-! The result words of the two loops after their first `n` turns. -/

/-- The result word of the loop of `pdep` after `n` turns. -/
def pdepUpTo (a m : Word) (n : Nat) : Word := ((List.range n).foldl (pdepTurn a m) (0, 0)).1

/-- The result word of the loop of `pext` after `n` turns. -/
def pextUpTo (a m : Word) (n : Nat) : Word := ((List.range n).foldl (pextTurn a m) (0, 0)).1

@[simp] theorem pdepUpTo_zero (a m : Word) : pdepUpTo a m 0 = 0 := rfl
@[simp] theorem pextUpTo_zero (a m : Word) : pextUpTo a m 0 = 0 := rfl

theorem pdep_eq_upTo (a m : Word) : pdep a m = pdepUpTo a m 64 := rfl
theorem pext_eq_upTo (a m : Word) : pext a m = pextUpTo a m 64 := rfl

@[simp] theorem bitAt_false (i : Nat) : bitAt false i = 0 := by simp [bitAt]

theorem bitAt_shiftLeft (b : Bool) (i c : Nat) : bitAt b i <<< c = bitAt b (c + i) := by
  simp only [bitAt, ← BitVec.shiftLeft_add, Nat.add_comm]

/-- One turn of `pdep` adds at most the bit it looks at. -/
theorem pdepUpTo_succ (a m : Word) {n : Nat} (h : n < 64) :
    pdepUpTo a m (n + 1)
      = pdepUpTo a m n ||| bitAt (m.getLsbD n && a.getLsbD (popcount (m.setWidth n))) n := by
  rw [← pdepLoop_index a m (Nat.le_of_lt h)]
  unfold pdepUpTo
  rw [List.range_succ, List.foldl_append, List.foldl_cons, List.foldl_nil, pdepTurn]
  cases m.getLsbD n <;> simp

/-- One turn of `pext` adds at most the bit it looks at. -/
theorem pextUpTo_succ (a m : Word) {n : Nat} (h : n < 64) :
    pextUpTo a m (n + 1)
      = pextUpTo a m n ||| bitAt (m.getLsbD n && a.getLsbD n) (popcount (m.setWidth n)) := by
  rw [← pextLoop_index a m (Nat.le_of_lt h)]
  unfold pextUpTo
  rw [List.range_succ, List.foldl_append, List.foldl_cons, List.foldl_nil, pextTurn]
  cases m.getLsbD n <;> simp

/-! Bits (R101, R102). -/

/-- Below `n`, a bit of the deposit is the operand's bit of that rank where the mask has a 1. -/
theorem getLsbD_pdepUpTo (a m : Word) {n : Nat} (hn : n ≤ 64) (i : Nat) :
    (pdepUpTo a m n).getLsbD i = (decide (i < n) && (m.getLsbD i && a.getLsbD (popcount (m.setWidth i)))) := by
  induction n with
  | zero => simp
  | succ n ih =>
    rw [pdepUpTo_succ a m hn, BitVec.getLsbD_or, ih (by omega), getLsbD_bitAt]
    rcases Nat.lt_trichotomy i n with h | rfl | h
    · simp [h, Nat.lt_succ_of_lt h, Nat.ne_of_gt h]
    · simp [show i < 64 from hn]
    · simp [show ¬i < n by omega, show ¬i < n + 1 by omega, Nat.ne_of_lt h]

/-- A bit of the extract is set exactly when a selected set bit has its rank. -/
theorem getLsbD_pextUpTo (a m : Word) {n : Nat} (hn : n ≤ 64) (q : Nat) :
    (pextUpTo a m n).getLsbD q = true
      ↔ ∃ p < n, m.getLsbD p = true ∧ a.getLsbD p = true ∧ popcount (m.setWidth p) = q := by
  induction n with
  | zero => simp
  | succ n ih =>
    have hr : popcount (m.setWidth n) < 64 := Nat.lt_of_le_of_lt (popcount_setWidth_le m (by omega)) hn
    rw [pextUpTo_succ a m hn, BitVec.getLsbD_or, Bool.or_eq_true, ih (by omega), Nat.exists_lt_succ_right, getLsbD_bitAt]
    refine or_congr Iff.rfl ?_
    simp only [Bool.and_eq_true, decide_eq_true_eq]
    constructor
    · rintro ⟨⟨-, hq⟩, hm, ha⟩
      exact ⟨hm, ha, hq⟩
    · rintro ⟨hm, ha, rfl⟩
      exact ⟨⟨hr, rfl⟩, hm, ha⟩

/-! A mask without bits from `k` on stops both loops there. -/

theorem pdepUpTo_of_zero_above {a m : Word} {k : Nat} (hm : ∀ j, k ≤ j → m.getLsbD j = false) {n : Nat}
    (hkn : k ≤ n) (hn : n ≤ 64) : pdepUpTo a m n = pdepUpTo a m k := by
  induction n, hkn using Nat.le_induction with
  | base => rfl
  | succ n hkn ih => simp [pdepUpTo_succ a m hn, ih (by omega), hm n hkn]

theorem pextUpTo_of_zero_above {a m : Word} {k : Nat} (hm : ∀ j, k ≤ j → m.getLsbD j = false) {n : Nat}
    (hkn : k ≤ n) (hn : n ≤ 64) : pextUpTo a m n = pextUpTo a m k := by
  induction n, hkn using Nat.le_induction with
  | base => rfl
  | succ n hkn ih => simp [pextUpTo_succ a m hn, ih (by omega), hm n hkn]

/-! The `k` turns from `c` on are the loop of the chunk cut out there, moved to its place (R109). -/

theorem pdepUpTo_add {a m v b : Word} {c k : Nat} (hck : c + k ≤ 64)
    (hb : ∀ j < k, b.getLsbD j = m.getLsbD (c + j))
    (hv : ∀ j < k, v.getLsbD j = a.getLsbD (popcount (m.setWidth c) + j)) :
    pdepUpTo a m (c + k) = pdepUpTo a m c ||| (pdepUpTo v b k <<< c) := by
  induction k with
  | zero => simp
  | succ k ih =>
    have hb' : ∀ j < k, b.getLsbD j = m.getLsbD (c + j) := fun j hj => hb j (by omega)
    have hrank : popcount (b.setWidth k) < k + 1 := Nat.lt_succ_of_le (popcount_setWidth_le b (by omega))
    rw [← Nat.add_assoc, pdepUpTo_succ a m (by omega), ih (by omega) hb' fun j hj => hv j (by omega),
      pdepUpTo_succ v b (by omega), BitVec.shiftLeft_or_distrib, bitAt_shiftLeft, ← BitVec.or_assoc,
      popcount_setWidth_add (by omega) hb', hb k (by omega), hv _ hrank]

theorem pextUpTo_add {a m v b : Word} {c k : Nat} (hck : c + k ≤ 64)
    (hb : ∀ j < k, b.getLsbD j = m.getLsbD (c + j)) (hv : ∀ j < k, v.getLsbD j = a.getLsbD (c + j)) :
    pextUpTo a m (c + k) = pextUpTo a m c ||| (pextUpTo v b k <<< popcount (m.setWidth c)) := by
  induction k with
  | zero => simp
  | succ k ih =>
    have hb' : ∀ j < k, b.getLsbD j = m.getLsbD (c + j) := fun j hj => hb j (by omega)
    rw [← Nat.add_assoc, pextUpTo_succ a m (by omega), ih (by omega) hb' fun j hj => hv j (by omega),
      pextUpTo_succ v b (by omega), BitVec.shiftLeft_or_distrib, bitAt_shiftLeft, ← BitVec.or_assoc,
      popcount_setWidth_add (by omega) hb', hb k (by omega), hv k (by omega)]

end Sys2Proof.Machine

/-! PROOFS. The table walks of 42_table_pdep.md R150 and 43_table_pext.md R170. Each turn of a walk, while the tables
hold, is one chunk of the reference function's loop. -/

namespace Sys2Proof.Machine

/-! The bits of a chunk (R7). -/

theorem ChunkWidth.bits_mul_chunks (w : ChunkWidth) : w.bits * w.chunks = 64 := by cases w <;> rfl

theorem ChunkWidth.bits_le (w : ChunkWidth) : w.bits ≤ 8 := by cases w <;> decide

/-- The bits of chunk `i` end at or below bit 64. -/
theorem ChunkWidth.bits_succ_le (w : ChunkWidth) {i : Nat} (hi : i < w.chunks) : w.bits * i + w.bits ≤ 64 :=
  calc w.bits * i + w.bits = w.bits * (i + 1) := (Nat.mul_succ _ _).symm
    _ ≤ w.bits * w.chunks := Nat.mul_le_mul_left _ hi
    _ = 64 := w.bits_mul_chunks

/-- The lowest chunk of a word, as a word. -/
theorem getLsbD_ofNat_mod_values (w : ChunkWidth) (s : Word) (k : Nat) :
    (BitVec.ofNat 64 (s.toNat % w.values)).getLsbD k = (decide (k < w.bits) && s.getLsbD k) := by
  have := w.bits_le
  rw [BitVec.getLsbD_ofNat, ChunkWidth.values, Nat.testBit_mod_two_pow, BitVec.testBit_toNat]
  by_cases hk : k < w.bits
  · simp [hk, show k < 64 by omega]
  · simp [hk]

/-- The bits of chunk `i`. -/
theorem getLsbD_chunkOf (w : ChunkWidth) (v : Word) (i k : Nat) :
    (BitVec.ofNat 64 (chunkOf w v i)).getLsbD k = (decide (k < w.bits) && v.getLsbD (w.bits * i + k)) := by
  rw [chunkOf, getLsbD_ofNat_mod_values, BitVec.getLsbD_ushiftRight]

theorem getLsbD_ofNat_of_lt_values {w : ChunkWidth} {b : Nat} (hb : b < w.values) {k : Nat} (hk : w.bits ≤ k) :
    (BitVec.ofNat 64 b).getLsbD k = false := by
  have : b < 2 ^ k := Nat.lt_of_lt_of_le hb (Nat.pow_le_pow_right (by decide) hk)
  rw [BitVec.getLsbD_ofNat, Nat.testBit_lt_two_pow this, Bool.and_false]

/-! A chunk's deposit, extract and count. -/

theorem chunkPdep_eq_upTo {w : ChunkWidth} {b : Nat} (hb : b < w.values) (v : Nat) :
    chunkPdep v b = pdepUpTo (BitVec.ofNat 64 v) (BitVec.ofNat 64 b) w.bits :=
  pdepUpTo_of_zero_above (fun _ hj => getLsbD_ofNat_of_lt_values hb hj) (by have := w.bits_le; omega) (Nat.le_refl 64)

theorem chunkPext_eq_upTo {w : ChunkWidth} {b : Nat} (hb : b < w.values) (v : Nat) :
    chunkPext v b = pextUpTo (BitVec.ofNat 64 v) (BitVec.ofNat 64 b) w.bits :=
  pextUpTo_of_zero_above (fun _ hj => getLsbD_ofNat_of_lt_values hb hj) (by have := w.bits_le; omega) (Nat.le_refl 64)

theorem chunk_popcount_eq {w : ChunkWidth} {b : Nat} (hb : b < w.values) :
    popcount (BitVec.ofNat 64 b) = popcount ((BitVec.ofNat 64 b).setWidth w.bits) := by
  rw [popcount_eq_setWidth]
  exact popcount_setWidth_of_zero_above (fun _ hj => getLsbD_ofNat_of_lt_values hb hj) (by have := w.bits_le; omega)
    (Nat.le_refl 64)

theorem toNat_lt_of_zero_above {v : Word} {k : Nat} (h : ∀ j, k ≤ j → v.getLsbD j = false) : v.toNat < 2 ^ k :=
  Nat.lt_pow_two_of_testBit _ fun j hj => by rw [BitVec.testBit_toNat, h j hj]

/-- A chunk's deposit is a chunk (R101). -/
theorem chunkPdep_lt {w : ChunkWidth} {b : Nat} (hb : b < w.values) (v : Nat) : (chunkPdep v b).toNat < w.values := by
  refine toNat_lt_of_zero_above fun j hj => ?_
  rw [chunkPdep_eq_upTo hb, getLsbD_pdepUpTo _ _ (by have := w.bits_le; omega)]
  simp [Nat.not_lt.mpr hj]

/-- A chunk's extract is a chunk (R102). -/
theorem chunkPext_lt {w : ChunkWidth} {b : Nat} (hb : b < w.values) (v : Nat) : (chunkPext v b).toNat < w.values := by
  have hw : w.bits ≤ 64 := by have := w.bits_le; omega
  refine toNat_lt_of_zero_above fun j hj => ?_
  rw [chunkPext_eq_upTo hb, Bool.eq_false_iff, ne_eq, getLsbD_pextUpTo _ _ hw]
  rintro ⟨p, hp, -, -, rfl⟩
  have := popcount_setWidth_le (BitVec.ofNat 64 b) (n := p) (by omega)
  omega

/-- A chunk goes through a table byte unchanged. -/
theorem setWidth_byte_of_lt_values {w : ChunkWidth} {v : Word} (h : v.toNat < w.values) :
    (v.setWidth 8).setWidth 64 = v := by
  have : w.values ≤ 2 ^ 8 := Nat.pow_le_pow_right (by decide) w.bits_le
  apply BitVec.eq_of_toNat_eq
  rw [BitVec.toNat_setWidth, BitVec.toNat_setWidth, Nat.mod_eq_of_lt (Nat.lt_of_lt_of_le h this)]
  exact Nat.mod_eq_of_lt v.isLt

/-! What a turn of a walk reads while the tables hold. -/

theorem TablesHold.read_pdepEntry {m : Memory} (h : TablesHold m) (w : ChunkWidth) (o : Orientation) {v b : Nat}
    (hv : v < w.values) (hb : b < w.values) :
    readByte m (entryAddr w o (pdepTable w o) v b) = .ok ((chunkPdep v b).setWidth 8) := by
  obtain ⟨k, hk, haddr, hentry⟩ := pdepTable_entry w o hv hb
  rw [haddr, h.readByte_entry _ hk, hentry]

theorem TablesHold.read_pextEntry {m : Memory} (h : TablesHold m) (w : ChunkWidth) (o : Orientation) {v b : Nat}
    (hv : v < w.values) (hb : b < w.values) :
    readByte m (entryAddr w o (pextTable w o) v b) = .ok ((chunkPext v b).setWidth 8) := by
  obtain ⟨k, hk, haddr, hentry⟩ := pextTable_entry w o hv hb
  rw [haddr, h.readByte_entry _ hk, hentry]

theorem chunkPop_toNat (b : Nat) : (chunkPop b).toNat = popcount (BitVec.ofNat 64 b) := by
  have := popcount_le (BitVec.ofNat 64 b)
  rw [chunkPop, BitVec.toNat_ofNat, Nat.mod_eq_of_lt (by omega)]

/-- Both popcount sources give the count (R150). -/
theorem TablesHold.chunkPopcount_eq {m : Memory} (h : TablesHold m) (w : ChunkWidth) (p : PopSource) {b : Nat}
    (hb : b < w.values) : chunkPopcount w p m b = .ok (popcount (BitVec.ofNat 64 b)) := by
  obtain ⟨c, hc, rfl⟩ := h.chunkPopcount_ok w p hb
  rw [hc]
  cases p
  · rfl
  · exact congrArg _ (chunkPop_toNat b)

/-! The walks without their reads. -/

/-- A read that succeeds is followed by the rest of the computation. -/
theorem bind_ok {α β : Type} (x : α) (f : α → Except Fault β) : (Except.ok x >>= f) = f x := rfl

/-- A turn of R150 on `(out, s)`, the chunk's deposit and count taken from the Oracle. -/
def pdepStep (w : ChunkWidth) (mask : Word) (st : Word × Word) (i : Nat) : Word × Word :=
  (st.1 ||| (chunkPdep (st.2.toNat % w.values) (chunkOf w mask i) <<< (w.bits * i)),
    st.2 >>> popcount (BitVec.ofNat 64 (chunkOf w mask i)))

/-- A turn of R170 on `(out, off)`, the chunk's extract and count taken from the Oracle. -/
def pextStep (w : ChunkWidth) (a mask : Word) (st : Word × Nat) (i : Nat) : Word × Nat :=
  (st.1 ||| (chunkPext (chunkOf w a i) (chunkOf w mask i) <<< st.2),
    st.2 + popcount (BitVec.ofNat 64 (chunkOf w mask i)))

theorem TablesHold.pdepChunk_eq {m : Memory} (h : TablesHold m) (w : ChunkWidth) (o : Orientation) (p : PopSource)
    (mask : Word) (st : Word × Word) (i : Nat) : pdepChunk w o p m mask st i = .ok (pdepStep w mask st i) := by
  have hb := chunkOf_lt w mask i
  have hv : st.2.toNat % w.values < w.values := Nat.mod_lt _ w.values_pos
  simp only [pdepChunk, h.read_pdepEntry w o hv hb, h.chunkPopcount_eq w p hb, bind_ok,
    setWidth_byte_of_lt_values (chunkPdep_lt hb _)]
  rfl

theorem TablesHold.pextChunk_eq {m : Memory} (h : TablesHold m) (w : ChunkWidth) (o : Orientation) (p : PopSource)
    (a mask : Word) (st : Word × Nat) (i : Nat) : pextChunk w o p m a mask st i = .ok (pextStep w a mask st i) := by
  have hb := chunkOf_lt w mask i
  have hv := chunkOf_lt w a i
  simp only [pextChunk, h.read_pextEntry w o hv hb, h.chunkPopcount_eq w p hb, bind_ok,
    setWidth_byte_of_lt_values (chunkPext_lt hb _)]
  rfl

/-- A turn of the PDEP walk takes the loop of `pdep` one chunk further. -/
theorem pdepStep_upTo (w : ChunkWidth) (a mask : Word) {i : Nat} (hi : i < w.chunks) :
    pdepStep w mask (pdepUpTo a mask (w.bits * i), a >>> popcount (mask.setWidth (w.bits * i))) i
      = (pdepUpTo a mask (w.bits * (i + 1)), a >>> popcount (mask.setWidth (w.bits * (i + 1)))) := by
  have hle := w.bits_succ_le hi
  have hb := chunkOf_lt w mask i
  have hbit : ∀ j < w.bits, (BitVec.ofNat 64 (chunkOf w mask i)).getLsbD j = mask.getLsbD (w.bits * i + j) :=
    fun j hj => by simp [getLsbD_chunkOf, hj]
  have hval : ∀ j < w.bits,
      (BitVec.ofNat 64 ((a >>> popcount (mask.setWidth (w.bits * i))).toNat % w.values)).getLsbD j
        = a.getLsbD (popcount (mask.setWidth (w.bits * i)) + j) :=
    fun j hj => by rw [getLsbD_ofNat_mod_values, BitVec.getLsbD_ushiftRight, decide_eq_true hj, Bool.true_and]
  rw [pdepStep, Nat.mul_succ, pdepUpTo_add hle hbit hval, popcount_setWidth_add hle hbit, chunkPdep_eq_upTo hb,
    chunk_popcount_eq hb, BitVec.shiftRight_add]

/-- A turn of the PEXT walk takes the loop of `pext` one chunk further. -/
theorem pextStep_upTo (w : ChunkWidth) (a mask : Word) {i : Nat} (hi : i < w.chunks) :
    pextStep w a mask (pextUpTo a mask (w.bits * i), popcount (mask.setWidth (w.bits * i))) i
      = (pextUpTo a mask (w.bits * (i + 1)), popcount (mask.setWidth (w.bits * (i + 1)))) := by
  have hle := w.bits_succ_le hi
  have hb := chunkOf_lt w mask i
  have hbit : ∀ v : Word, ∀ j < w.bits, (BitVec.ofNat 64 (chunkOf w v i)).getLsbD j = v.getLsbD (w.bits * i + j) :=
    fun v j hj => by simp [getLsbD_chunkOf, hj]
  rw [pextStep, Nat.mul_succ, pextUpTo_add hle (hbit mask) (hbit a), popcount_setWidth_add hle (hbit mask),
    chunkPext_eq_upTo hb, chunk_popcount_eq hb]

/-- The first `n` turns of the PDEP walk. -/
theorem foldl_pdepStep (w : ChunkWidth) (a mask : Word) {n : Nat} (hn : n ≤ w.chunks) :
    (List.range n).foldl (pdepStep w mask) (0, a)
      = (pdepUpTo a mask (w.bits * n), a >>> popcount (mask.setWidth (w.bits * n))) := by
  induction n with
  | zero => simp
  | succ n ih =>
    rw [List.range_succ, List.foldl_append, ih (Nat.le_of_lt hn)]
    exact pdepStep_upTo w a mask hn

/-- The first `n` turns of the PEXT walk. -/
theorem foldl_pextStep (w : ChunkWidth) (a mask : Word) {n : Nat} (hn : n ≤ w.chunks) :
    (List.range n).foldl (pextStep w a mask) (0, 0)
      = (pextUpTo a mask (w.bits * n), popcount (mask.setWidth (w.bits * n))) := by
  induction n with
  | zero => simp
  | succ n ih =>
    rw [List.range_succ, List.foldl_append, ih (Nat.le_of_lt hn)]
    exact pextStep_upTo w a mask hn

theorem foldl_pdepStep_chunks (w : ChunkWidth) (a mask : Word) :
    ((List.range w.chunks).foldl (pdepStep w mask) (0, a)).1 = pdep a mask := by
  rw [foldl_pdepStep w a mask (Nat.le_refl _), w.bits_mul_chunks, pdep_eq_upTo]

theorem foldl_pextStep_chunks (w : ChunkWidth) (a mask : Word) :
    ((List.range w.chunks).foldl (pextStep w a mask) (0, 0)).1 = pext a mask := by
  rw [foldl_pextStep w a mask (Nat.le_refl _), w.bits_mul_chunks, pext_eq_upTo]

/-- R150, R161, R162: over the tables the PDEP walk answers `pdep`, whatever its orientation and popcount source. -/
theorem TablesHold.tablePdep_eq {m : Memory} (h : TablesHold m) (w : ChunkWidth) (o : Orientation) (p : PopSource)
    (a mask : Word) : tablePdep w o p m a mask = .ok (pdep a mask) := by
  rw [tablePdep, foldlM_ok _ _ fun st i _ => h.pdepChunk_eq w o p mask st i, ← foldl_pdepStep_chunks w a mask]
  rfl

/-- R170, R181, R182: over the tables the PEXT walk answers `pext`, whatever its orientation and popcount source. -/
theorem TablesHold.tablePext_eq {m : Memory} (h : TablesHold m) (w : ChunkWidth) (o : Orientation) (p : PopSource)
    (a mask : Word) : tablePext w o p m a mask = .ok (pext a mask) := by
  rw [tablePext, foldlM_ok _ _ fun st i _ => h.pextChunk_eq w o p a mask st i, ← foldl_pextStep_chunks w a mask]
  rfl

end Sys2Proof.Machine

/-! PROOFS. The eight table-driven PDEP commands and the eight table-driven PEXT commands. -/

namespace Sys2Proof.Machine

/-- The table-driven PDEP commands (R74, class 0x1 with OP = 0). -/
def tablePdepInstrs : List Instr :=
  [.pdepT16, .pdepT16Pt, .pdepT16Inv, .pdepT16InvPt, .pdepT256, .pdepT256Pt, .pdepT256Inv, .pdepT256InvPt]

/-- The table-driven PEXT commands (R74, class 0x1 with OP = 1). -/
def tablePextInstrs : List Instr :=
  [.pextT16, .pextT16Pt, .pextT16Inv, .pextT16InvPt, .pextT256, .pextT256Pt, .pextT256Inv, .pextT256InvPt]

/-- Each of the eight PDEP commands is the one walk at some width, orientation and popcount source (R153 to R160). -/
theorem exec_tablePdep {i : Instr} (hi : i ∈ tablePdepInstrs) :
    ∃ w o p, ∀ s, exec i s = tablePdepCommand w o p s := by
  simp only [tablePdepInstrs, List.mem_cons, List.not_mem_nil, or_false] at hi
  rcases hi with rfl | rfl | rfl | rfl | rfl | rfl | rfl | rfl <;> exact ⟨_, _, _, fun _ => rfl⟩

/-- Each of the eight PEXT commands is the one walk at some width, orientation and popcount source (R173 to R180). -/
theorem exec_tablePext {i : Instr} (hi : i ∈ tablePextInstrs) :
    ∃ w o p, ∀ s, exec i s = tablePextCommand w o p s := by
  simp only [tablePextInstrs, List.mem_cons, List.not_mem_nil, or_false] at hi
  rcases hi with rfl | rfl | rfl | rfl | rfl | rfl | rfl | rfl <;> exact ⟨_, _, _, fun _ => rfl⟩

theorem tablePdepCommand_eq {s : State} (htv : s.tv = true) (h : TablesHold s.tmem) (w : ChunkWidth) (o : Orientation)
    (p : PopSource) : tablePdepCommand w o p s = .next (complete s .ok (some (pdep s.la s.lb))) := by
  rw [tablePdepCommand, whenBuilt_built htv, h.tablePdep_eq]
  rfl

theorem tablePextCommand_eq {s : State} (htv : s.tv = true) (h : TablesHold s.tmem) (w : ChunkWidth) (o : Orientation)
    (p : PopSource) : tablePextCommand w o p s = .next (complete s .ok (some (pext s.la s.lb))) := by
  rw [tablePextCommand, whenBuilt_built htv, h.tablePext_eq]
  rfl

/-- Settles O27: over the tables every walk of R150 answers `pdep`, and the guard answers NOT_BUILT before any read. -/
theorem tablePdepCommandsDeposit : Obligations.TablePdepCommandsDeposit := by
  intro i hi s
  obtain ⟨w, o, p, hexec⟩ := exec_tablePdep hi
  rw [hexec s]
  exact ⟨fun htv h => tablePdepCommand_eq htv h w o p, fun htv => whenBuilt_notBuilt htv _⟩

/-- Settles O28: over the tables every walk of R170 answers `pext`, and the guard answers NOT_BUILT before any read. -/
theorem tablePextCommandsExtract : Obligations.TablePextCommandsExtract := by
  intro i hi s
  obtain ⟨w, o, p, hexec⟩ := exec_tablePext hi
  rw [hexec s]
  exact ⟨fun htv h => tablePextCommand_eq htv h w o p, fun htv => whenBuilt_notBuilt htv _⟩

end Sys2Proof.Machine

/-! PROOFS. The vector-shuffle engine (44_vector_shuffle.md R190 to R194). Over the tables a lane is two turns of the
16-entry walk, one for each nibble of the lane. -/

namespace Sys2Proof.Machine

/-! Multi-byte reads (R52). -/

theorem memReadNat_ok {m : Memory} {f : Nat → Byte} (n a : Nat) (h : ∀ i < n, readByte m (a + i) = .ok (f i)) :
    ∃ x, memReadNat m a n = .ok x ∧ ∀ i < n, ∀ k < 8, x.testBit (8 * i + k) = (f i).getLsbD k := by
  induction n generalizing a f with
  | zero => exact ⟨0, rfl, fun i hi => absurd hi (Nat.not_lt_zero i)⟩
  | succ n ih =>
    obtain ⟨hi, hread, hbits⟩ := ih (f := fun i => f (i + 1)) (a + 1) fun i hi => by
      rw [Nat.add_right_comm]; exact h (i + 1) (by omega)
    refine ⟨(f 0).toNat + 256 * hi, ?_, fun i hlt k hk => ?_⟩
    · rw [memReadNat, hread, show readByte m a = .ok (f 0) from h 0 (by omega)]
      rfl
    · rw [Nat.add_comm, show 256 = 2 ^ 8 from rfl, Nat.testBit_two_pow_mul_add _ (f 0).isLt]
      cases i with
      | zero => rw [Nat.mul_zero, Nat.zero_add, if_pos hk, BitVec.testBit_toNat]
      | succ i => rw [if_neg (by omega), show 8 * (i + 1) + k - 8 = 8 * i + k by omega, hbits i (by omega) k hk]

/-- A read of `n` bytes assembles them little-endian. -/
theorem memRead_ok {m : Memory} {f : Nat → Byte} {a n : Nat} (h : ∀ i < n, readByte m (a + i) = .ok (f i)) :
    ∃ v, memRead m a n = .ok v ∧ ∀ i < n, v.extractLsb' (8 * i) 8 = f i := by
  obtain ⟨x, hread, hbits⟩ := memReadNat_ok n a h
  refine ⟨BitVec.ofNat (8 * n) x, by rw [memRead, hread]; rfl, fun i hi => BitVec.eq_of_getLsbD_eq fun k hk => ?_⟩
  rw [BitVec.getLsbD_extractLsb', BitVec.getLsbD_ofNat, hbits i hi k hk]
  simp [hk, show 8 * i + k < 8 * n by omega]

/-! The byte shuffle on nibble indices (R190, R192). -/

theorem laneByte_shuffle (v x : Lane) {j : Nat} (hj : j < 16) (hx : (laneByte x j).toNat < 16) :
    laneByte (shuffle v x) j = laneByte v (laneByte x j).toNat := by
  have hbit : (laneByte x j).getLsbD 7 = false := by
    rw [← BitVec.testBit_toNat]
    exact Nat.testBit_lt_two_pow (by omega)
  rw [shuffle, laneByte_laneOfBytes _ hj, hbit, Nat.mod_eq_of_lt hx]
  rfl

theorem nibbleAt_toNat (v : Word) (i : Nat) : (nibbleAt v (4 * i)).toNat = chunkOf .w16 v i := by
  rw [nibbleAt, BitVec.toNat_setWidth, BitVec.extractLsb'_toNat, chunkOf, BitVec.toNat_ushiftRight]
  exact Nat.mod_eq_of_lt (Nat.lt_trans (Nat.mod_lt _ (by decide)) (by decide))

/-- The low nibble of lane `i` is chunk `2i`. -/
theorem nibbleAt_even (v : Word) (i : Nat) : (nibbleAt v (8 * i)).toNat = chunkOf .w16 v (2 * i) := by
  rw [show 8 * i = 4 * (2 * i) by omega]
  exact nibbleAt_toNat v _

/-- The high nibble of lane `i` is chunk `2i + 1`. -/
theorem nibbleAt_odd (v : Word) (i : Nat) : (nibbleAt v (8 * i + 4)).toNat = chunkOf .w16 v (2 * i + 1) := by
  rw [show 8 * i + 4 = 4 * (2 * i + 1) by omega]
  exact nibbleAt_toNat v _

theorem laneByte_loNibbles (mask : Word) {i : Nat} (hi : i < 8) :
    (laneByte (loNibbles mask) i).toNat = chunkOf .w16 mask (2 * i) := by
  rw [loNibbles, laneByte_laneOfBytes _ (by omega), if_pos hi, nibbleAt_even]

theorem laneByte_hiNibbles (mask : Word) {i : Nat} (hi : i < 8) :
    (laneByte (hiNibbles mask) i).toNat = chunkOf .w16 mask (2 * i + 1) := by
  rw [hiNibbles, laneByte_laneOfBytes _ (by omega), if_pos hi, nibbleAt_odd]

/-! One lane. -/

/-- A row of a lane table, shuffled by nibble indices: each byte is the entry its index names. -/
theorem TablesHold.shuffledRow {m : Memory} (h : TablesHold m) {t : Table} (ht : t.size = 256) {x : Nat} (hx : x < 16) :
    ∃ v, laneVector m t x = .ok v ∧ ∀ (y : Lane) {j b : Nat}, j < 16 → b < 16 → (laneByte y j).toNat = b →
      laneByte (shuffle v y) j = t.entry (16 * x + b) := by
  have hbytes : ∀ j < 16, readByte m (t.base + 16 * x + j) = .ok (t.entry (16 * x + j)) := fun j hj => by
    rw [Nat.add_assoc]
    exact h.readByte_entry t (by omega)
  obtain ⟨v, hread, hv⟩ := memRead_ok hbytes
  refine ⟨v, hread, ?_⟩
  rintro y j b hj hb rfl
  rw [laneByte_shuffle v y hj hb]
  exact hv _ hb

theorem lp_entry (x : Nat) {b : Nat} (hb : b < 16) : Table.lp.entry (16 * x + b) = (chunkPdep x b).setWidth 8 := by
  rw [Table.entry, show (16 * x + b) / 16 = x by omega, show (16 * x + b) % 16 = b by omega]

theorem lx_entry (x : Nat) {b : Nat} (hb : b < 16) : Table.lx.entry (16 * x + b) = (chunkPext x b).setWidth 8 := by
  rw [Table.entry, show (16 * x + b) / 16 = x by omega, show (16 * x + b) % 16 = b by omega]

theorem TablesHold.read_p16 {m : Memory} (h : TablesHold m) {b : Nat} (hb : b < 16) :
    readByte m (Table.p16.base + b) = .ok (chunkPop b) := h.readByte_entry .p16 hb

/-- Two nibbles side by side in a byte are the two nibbles side by side in the word. -/
theorem setWidth_nibblePair {c d : Word} (hc : c.toNat < 16) (hd : d.toNat < 16) :
    (c.setWidth 8 ||| (d.setWidth 8 <<< 4)).setWidth 64 = c ||| (d <<< 4) := by
  apply BitVec.eq_of_toNat_eq
  simp only [BitVec.toNat_setWidth, BitVec.toNat_or, BitVec.toNat_shiftLeft, Nat.shiftLeft_eq,
    Nat.mod_eq_of_lt (show c.toNat < 2 ^ 8 by omega), Nat.mod_eq_of_lt (show d.toNat < 2 ^ 8 by omega),
    Nat.mod_eq_of_lt (show d.toNat * 2 ^ 4 < 2 ^ 8 by omega), Nat.mod_eq_of_lt (show d.toNat * 2 ^ 4 < 2 ^ 64 by omega)]
  exact Nat.mod_eq_of_lt (Nat.or_lt_two_pow (by omega) (by omega))

/-- Lane `i` of PDEP.VS is the turns `2i` and `2i + 1` of the 16-entry walk. -/
theorem TablesHold.pdepVsLane_eq {m : Memory} (h : TablesHold m) (mask : Word) (st : Word × Word) {i : Nat} (hi : i < 8) :
    pdepVsLane m mask st i = .ok (pdepStep .w16 mask (pdepStep .w16 mask st (2 * i)) (2 * i + 1)) := by
  have hlo : chunkOf .w16 mask (2 * i) < 16 := chunkOf_lt .w16 mask _
  have hhi : chunkOf .w16 mask (2 * i + 1) < 16 := chunkOf_lt .w16 mask _
  have hnib : ∀ s : Word, s.toNat % 16 < 16 := fun s => Nat.mod_lt _ (by decide)
  obtain ⟨vl, hvl, hr⟩ := h.shuffledRow (t := .lp) rfl (hnib st.2)
  obtain ⟨vh, hvh, hh⟩ := h.shuffledRow (t := .lp) rfl
    (hnib (st.2 >>> popcount (BitVec.ofNat 64 (chunkOf .w16 mask (2 * i)))))
  simp only [pdepVsLane, laneByte_loNibbles mask hi, laneByte_hiNibbles mask hi, h.read_p16 hlo, h.read_p16 hhi, bind_ok,
    chunkPop_toNat, hvl, hvh,
    hr _ (Nat.lt_trans hi (by decide)) hlo (laneByte_loNibbles mask hi),
    hh _ (Nat.lt_trans hi (by decide)) hhi (laneByte_hiNibbles mask hi), lp_entry _ hlo, lp_entry _ hhi,
    setWidth_nibblePair (chunkPdep_lt (w := .w16) hlo _) (chunkPdep_lt (w := .w16) hhi _)]
  rw [BitVec.shiftLeft_or_distrib, ← BitVec.or_assoc, ← BitVec.shiftLeft_add, show 4 + 8 * i = 4 * (2 * i + 1) by omega,
    show 8 * i = 4 * (2 * i) by omega]
  rfl

/-- Lane `i` of PEXT.VS is the turns `2i` and `2i + 1` of the 16-entry walk. -/
theorem TablesHold.pextVsLane_eq {m : Memory} (h : TablesHold m) (a mask : Word) (st : Word × Nat) {i : Nat} (hi : i < 8) :
    pextVsLane m a mask st i = .ok (pextStep .w16 a mask (pextStep .w16 a mask st (2 * i)) (2 * i + 1)) := by
  have hlo : chunkOf .w16 mask (2 * i) < 16 := chunkOf_lt .w16 mask _
  have hhi : chunkOf .w16 mask (2 * i + 1) < 16 := chunkOf_lt .w16 mask _
  obtain ⟨vl, hvl, hr⟩ := h.shuffledRow (t := .lx) rfl (chunkOf_lt .w16 a (2 * i))
  obtain ⟨vh, hvh, hh⟩ := h.shuffledRow (t := .lx) rfl (chunkOf_lt .w16 a (2 * i + 1))
  simp only [pextVsLane, laneByte_loNibbles mask hi, laneByte_hiNibbles mask hi, h.read_p16 hlo, h.read_p16 hhi, bind_ok,
    chunkPop_toNat, nibbleAt_even, nibbleAt_odd, hvl, hvh,
    hr _ (Nat.lt_trans hi (by decide)) hlo (laneByte_loNibbles mask hi),
    hh _ (Nat.lt_trans hi (by decide)) hhi (laneByte_hiNibbles mask hi), lx_entry _ hlo, lx_entry _ hhi,
    setWidth_byte_of_lt_values (chunkPext_lt (w := .w16) hlo _),
    setWidth_byte_of_lt_values (chunkPext_lt (w := .w16) hhi _)]
  rw [BitVec.shiftLeft_or_distrib, ← BitVec.or_assoc, ← BitVec.shiftLeft_add, Nat.add_comm (popcount _) st.2]
  rfl

/-! All lanes. -/

/-- A loop that takes two turns at a time. -/
theorem foldl_range_pairs {β : Type} (g : β → Nat → β) (b : β) (n : Nat) :
    (List.range n).foldl (fun b i => g (g b (2 * i)) (2 * i + 1)) b = (List.range (2 * n)).foldl g b := by
  induction n with
  | zero => rfl
  | succ n ih =>
    rw [List.range_succ, List.foldl_append, ih, Nat.mul_succ, List.range_succ, List.foldl_append, List.range_succ,
      List.foldl_append]
    rfl

/-- R193: over the tables the datapath of PDEP.VS answers `pdep`. -/
theorem TablesHold.pdepVs_eq {m : Memory} (h : TablesHold m) (a mask : Word) : pdepVs m a mask = .ok (pdep a mask) := by
  rw [pdepVs, foldlM_ok _ _ fun st i hi => h.pdepVsLane_eq mask st (List.mem_range.mp hi), foldl_range_pairs,
    ← foldl_pdepStep_chunks .w16 a mask]
  rfl

/-- R194: over the tables the datapath of PEXT.VS answers `pext`. -/
theorem TablesHold.pextVs_eq {m : Memory} (h : TablesHold m) (a mask : Word) : pextVs m a mask = .ok (pext a mask) := by
  rw [pextVs, foldlM_ok _ _ fun st i hi => h.pextVsLane_eq a mask st (List.mem_range.mp hi), foldl_range_pairs,
    ← foldl_pextStep_chunks .w16 a mask]
  rfl

end Sys2Proof.Machine

/-! PROOFS. The closed-form extract (45_closed_form.md R210, R211). Before round `i` the selected bit of position `p`
stands `z mod 2^i` places lower, `z` being the number of unselected positions below `p`; after six rounds it has moved
all `z` places, to its rank. -/

namespace Sys2Proof.Machine

/-! Counts of unselected positions. -/

/-- The number of unselected positions below `p`. -/
def zerosBelow (mask : Word) (p : Nat) : Nat := popcount ((~~~mask).setWidth p)

theorem popcount_add_zerosBelow (mask : Word) {p : Nat} (hp : p ≤ 64) :
    popcount (mask.setWidth p) + zerosBelow mask p = p := by
  unfold zerosBelow
  induction p with
  | zero => rfl
  | succ p ih =>
    have hbit : (~~~mask).getLsbD p = !mask.getLsbD p := by simp [show p < 64 from hp]
    rw [popcount_setWidth_succ mask hp, popcount_setWidth_succ _ hp, hbit]
    have := ih (by omega)
    cases mask.getLsbD p <;> simp <;> omega

/-- Going up by `d` positions passes at most `d` unselected ones. -/
theorem zerosBelow_add_le (mask : Word) (q d : Nat) (h : q + d ≤ 64) :
    zerosBelow mask q ≤ zerosBelow mask (q + d) ∧ zerosBelow mask (q + d) ≤ zerosBelow mask q + d := by
  induction d with
  | zero => simp
  | succ d ih =>
    have hstep : zerosBelow mask (q + d + 1) = zerosBelow mask (q + d) + ((~~~mask).getLsbD (q + d)).toNat :=
      popcount_setWidth_succ _ (by omega)
    have := ih (by omega)
    have := ((~~~mask).getLsbD (q + d)).toNat_le
    rw [← Nat.add_assoc]
    omega

/-! The parallel fold of R210. -/

/-- Whether a word has an odd number of set bits below `n`. -/
def oddBelow (v : Word) (n : Nat) : Bool := popcount (v.setWidth n) % 2 == 1

theorem oddBelow_succ (v : Word) {n : Nat} (h : n < 64) : oddBelow v (n + 1) = (oddBelow v n ^^ v.getLsbD n) := by
  unfold oddBelow
  rw [popcount_setWidth_succ v h]
  cases v.getLsbD n <;> rcases Nat.mod_two_eq_zero_or_one (popcount (v.setWidth n)) with h | h <;> simp [Nat.add_mod, h]

/-- Bit `j` of `p` is the parity of the `n` bits of `v` that end at bit `j`. -/
def WindowParity (v : Word) (n : Nat) (p : Word) : Prop :=
  ∀ j < 64, p.getLsbD j = (oddBelow v (j + 1) ^^ oddBelow v (j + 1 - n))

theorem windowParity_one (v : Word) : WindowParity v 1 v := fun j hj => by
  rw [oddBelow_succ v hj, Nat.add_sub_cancel, Bool.xor_comm, ← Bool.xor_assoc, Bool.xor_self, Bool.false_xor]

theorem WindowParity.double {v p : Word} {n : Nat} (h : WindowParity v n p) :
    WindowParity v (2 * n) (p ^^^ (p <<< n)) := fun j hj => by
  rw [BitVec.getLsbD_xor, BitVec.getLsbD_shiftLeft, h j hj]
  by_cases hjn : j < n
  · simp [hjn, show j + 1 - n = 0 by omega, show j + 1 - 2 * n = 0 by omega]
  · rw [h (j - n) (by omega), show j - n + 1 = j + 1 - n by omega, show j + 1 - n - n = j + 1 - 2 * n by omega]
    simp [hj, hjn]

/-- R210: bit `j` of the fold is the parity of the bits `j` to 0. -/
theorem getLsbD_parallelPrefix (mk : Word) {j : Nat} (hj : j < 64) :
    (parallelPrefix mk).getLsbD j = oddBelow mk (j + 1) := by
  have h : WindowParity mk 64 (parallelPrefix mk) := (windowParity_one mk).double.double.double.double.double.double
  rw [h j hj, Nat.sub_eq_zero_of_le hj]
  exact Bool.xor_false _

/-! The word `mk` of R210. -/

/-- Before round `i`, `mk` has `z / 2^i` set bits at or below each position. -/
def GapsCount (mask : Word) (i : Nat) (gaps : Word) : Prop :=
  ∀ j < 64, popcount (gaps.setWidth (j + 1)) = zerosBelow mask j / 2 ^ i

theorem gapsCount_start (mask : Word) : GapsCount mask 0 ((~~~mask) <<< 1) := by
  intro j hj
  rw [Nat.pow_zero, Nat.div_one]
  induction j with
  | zero =>
    rw [popcount_setWidth_succ _ hj, zerosBelow, popcount_setWidth_zero, popcount_setWidth_zero]
    simp
  | succ j ih =>
    have hbit : ((~~~mask) <<< 1).getLsbD (j + 1) = (~~~mask).getLsbD j := by
      rw [BitVec.getLsbD_shiftLeft]
      simp [hj]
    rw [popcount_setWidth_succ _ hj, ih (by omega), hbit, zerosBelow, zerosBelow, popcount_setWidth_succ _ (by omega)]

/-- Keeping every second set bit halves the counts. -/
theorem popcount_every_second (g : Word) {n : Nat} (hn : n ≤ 64) :
    popcount ((g &&& ~~~parallelPrefix g).setWidth n) = popcount (g.setWidth n) / 2 := by
  induction n with
  | zero => rw [popcount_setWidth_zero, popcount_setWidth_zero]
  | succ n ih =>
    have hbit : (g &&& ~~~parallelPrefix g).getLsbD n = (g.getLsbD n && !oddBelow g (n + 1)) := by
      rw [BitVec.getLsbD_and, BitVec.getLsbD_not, getLsbD_parallelPrefix g hn, decide_eq_true (show n < 64 from hn),
        Bool.true_and]
    rw [popcount_setWidth_succ _ hn, ih (by omega), hbit, oddBelow, popcount_setWidth_succ g hn]
    cases g.getLsbD n
    · simp
    · rcases Nat.mod_two_eq_zero_or_one (popcount (g.setWidth n)) with h | h
      · simp [Nat.add_mod, h]; omega
      · simp [Nat.add_mod, h]; omega

theorem GapsCount.next {mask g : Word} {i : Nat} (h : GapsCount mask i g) :
    GapsCount mask (i + 1) (g &&& ~~~parallelPrefix g) := fun j hj => by
  rw [popcount_every_second g hj, h j hj, Nat.div_div_eq_div_mul, Nat.pow_succ]

/-! The words `m` and `x` of R210. -/

/-- Where the bit of position `p` stands before round `i`. -/
def movedTo (mask : Word) (i p : Nat) : Nat := p - zerosBelow mask p % 2 ^ i

/-- Before round `i`, `v` holds the bits of `y` that `mask` selects, each where it then stands. -/
def Gathered (mask y : Word) (i : Nat) (v : Word) : Prop :=
  ∀ q, v.getLsbD q = true ↔ ∃ p < 64, mask.getLsbD p = true ∧ y.getLsbD p = true ∧ movedTo mask i p = q

theorem gathered_start (mask y : Word) : Gathered mask y 0 (y &&& mask) := by
  intro q
  simp only [movedTo, Nat.pow_zero, Nat.mod_one, Nat.sub_zero, BitVec.getLsbD_and, Bool.and_eq_true]
  constructor
  · rintro ⟨hy, hm⟩
    exact ⟨q, BitVec.lt_of_getLsbD hm, hm, hy, rfl⟩
  · rintro ⟨p, -, hm, hy, rfl⟩
    exact ⟨hy, hm⟩

/-- All positions a bit passes on its way hold the same multiple of `2^i` unselected positions below them. -/
theorem zerosBelow_movedTo (mask : Word) (i : Nat) {p : Nat} (hp : p < 64) :
    zerosBelow mask (movedTo mask i p) / 2 ^ i = zerosBelow mask p / 2 ^ i := by
  have hz := popcount_add_zerosBelow mask (Nat.le_of_lt hp)
  have hmod := Nat.mod_le (zerosBelow mask p) (2 ^ i)
  have hpos : movedTo mask i p + zerosBelow mask p % 2 ^ i = p := Nat.sub_add_cancel (by omega)
  have hle := zerosBelow_add_le mask (movedTo mask i p) (zerosBelow mask p % 2 ^ i) (by omega)
  rw [hpos] at hle
  have hdiv := Nat.div_add_mod (zerosBelow mask p) (2 ^ i)
  refine Nat.le_antisymm (Nat.div_le_div_right hle.1) ?_
  rw [Nat.le_div_iff_mul_le (Nat.two_pow_pos i), Nat.mul_comm]
  omega

/-- The fold tells which bits move in round `i`: those whose number of places still to go is an odd multiple of `2^i`. -/
theorem GapsCount.moves_iff {mask g : Word} {i : Nat} (h : GapsCount mask i g) {p : Nat} (hp : p < 64) :
    (parallelPrefix g).getLsbD (movedTo mask i p) = true ↔ zerosBelow mask p / 2 ^ i % 2 = 1 := by
  have hq : movedTo mask i p < 64 := Nat.lt_of_le_of_lt (Nat.sub_le _ _) hp
  rw [getLsbD_parallelPrefix g hq, oddBelow, h _ hq, zerosBelow_movedTo mask i hp, beq_iff_eq]

/-- Round `i` takes a bit `2^i` places down if that multiple is odd, and leaves it otherwise. -/
theorem movedTo_succ (mask : Word) (i : Nat) {p : Nat} (hp : p < 64) :
    movedTo mask i p = movedTo mask (i + 1) p + 2 ^ i * (zerosBelow mask p / 2 ^ i % 2) := by
  have hz := popcount_add_zerosBelow mask (Nat.le_of_lt hp)
  have hmod := Nat.mod_le (zerosBelow mask p) (2 ^ (i + 1))
  rw [Nat.pow_succ, Nat.mod_mul] at hmod
  rw [movedTo, movedTo, Nat.pow_succ, Nat.mod_mul]
  omega

/-- One round moves each bit that has an odd multiple of `2^i` to go. -/
theorem Gathered.next {mask y g v : Word} {i : Nat} (h : Gathered mask y i v) (hg : GapsCount mask i g) (t : Word)
    (ht : ∀ q, t.getLsbD q = (v.getLsbD q && (parallelPrefix g).getLsbD q)) :
    Gathered mask y (i + 1) ((v ^^^ t) ||| (t >>> (2 ^ i))) := by
  intro q
  have hbit : ((v ^^^ t) ||| (t >>> (2 ^ i))).getLsbD q = true
      ↔ (v.getLsbD q = true ∧ ¬(parallelPrefix g).getLsbD q = true)
        ∨ (v.getLsbD (2 ^ i + q) = true ∧ (parallelPrefix g).getLsbD (2 ^ i + q) = true) := by
    rw [BitVec.getLsbD_or, BitVec.getLsbD_xor, BitVec.getLsbD_ushiftRight, ht, ht]
    cases v.getLsbD q <;> simp
  rw [hbit, h q, h (2 ^ i + q)]
  constructor
  · rintro (⟨⟨p, hp, hm, hy, rfl⟩, hstays⟩ | ⟨⟨p, hp, hm, hy, hq⟩, hmoves⟩)
    · rw [hg.moves_iff hp] at hstays
      refine ⟨p, hp, hm, hy, ?_⟩
      rw [movedTo_succ mask i hp, Nat.mod_two_ne_one.mp hstays]
      rfl
    · rw [← hq, hg.moves_iff hp] at hmoves
      refine ⟨p, hp, hm, hy, ?_⟩
      rw [movedTo_succ mask i hp, hmoves] at hq
      omega
  · rintro ⟨p, hp, hm, hy, rfl⟩
    have hsucc := movedTo_succ mask i hp
    rcases Nat.mod_two_eq_zero_or_one (zerosBelow mask p / 2 ^ i) with hz | hz
    · have hstays : movedTo mask (i + 1) p = movedTo mask i p := by rw [hsucc, hz]; rfl
      refine .inl ⟨⟨p, hp, hm, hy, hstays.symm⟩, ?_⟩
      rw [hstays, hg.moves_iff hp, hz]
      decide
    · have hmoves : 2 ^ i + movedTo mask (i + 1) p = movedTo mask i p := by rw [hsucc, hz]; omega
      refine .inr ⟨⟨p, hp, hm, hy, hmoves.symm⟩, ?_⟩
      rw [hmoves, hg.moves_iff hp, hz]

/-! The rounds together. -/

/-- What holds before round `i` of R210 on the operands `x` and `mask`. -/
structure RoundInv (x mask : Word) (i : Nat) (c : CompressState) : Prop where
  /-- The working mask holds the mask's own bits. -/
  m : Gathered mask mask i c.m
  /-- The working value holds the operand's selected bits. -/
  x : Gathered mask x i c.x
  /-- The word `mk` tells which of them move next. -/
  gaps : GapsCount mask i c.gaps

theorem RoundInv.next {x mask : Word} {i : Nat} {c : CompressState} (h : RoundInv x mask i c) :
    RoundInv x mask (i + 1) (compressRound c i) where
  m := h.m.next h.gaps _ fun q => by simp [Bool.and_comm]
  x := h.x.next h.gaps _ fun q => by
    have hsub : c.x.getLsbD q = true → c.m.getLsbD q = true := fun hx => by
      obtain ⟨p, hp, hm, -, hq⟩ := (h.x q).mp hx
      exact (h.m q).mpr ⟨p, hp, hm, hm, hq⟩
    cases hx : c.x.getLsbD q
    · simp [hx]
    · simp [hx, hsub hx]
  gaps := h.gaps.next

/-- R211: the datapath of PEXT.CF answers `pext`. -/
theorem pextClosed_eq (x mask : Word) : pextClosed x mask = pext x mask := by
  have rounds : ∀ n, RoundInv x mask n
      ((List.range n).foldl compressRound { m := mask, x := x &&& mask, gaps := (~~~mask) <<< 1 }) := by
    intro n
    induction n with
    | zero => exact ⟨by simpa using gathered_start mask mask, gathered_start mask x, gapsCount_start mask⟩
    | succ n ih =>
      rw [List.range_succ, List.foldl_append]
      exact ih.next
  have hfinal : ∀ p < 64, movedTo mask 6 p = popcount (mask.setWidth p) := fun p hp => by
    have hz := popcount_add_zerosBelow mask (Nat.le_of_lt hp)
    rw [movedTo, Nat.mod_eq_of_lt (show zerosBelow mask p < 2 ^ 6 by omega)]
    omega
  refine BitVec.eq_of_getLsbD_eq fun q _ => Bool.eq_iff_iff.mpr ?_
  rw [pext_eq_upTo, getLsbD_pextUpTo _ _ (Nat.le_refl 64), pextClosed, (rounds 6).x q]
  refine exists_congr fun p => and_congr_right fun hp => ?_
  rw [hfinal p hp]

end Sys2Proof.Machine

/-! Proofs, part 6: `CALL` (30_encoding.md R79): a host that writes the operands, issues a command, polls and reads RESULT. -/

namespace Sys2Proof.Machine

/-! Every PDEP and PEXT command answers the Oracle's value (R19). -/

/-- The commands that deposit. -/
def pdepInstrs : List Instr := .pdepRef :: (tablePdepInstrs ++ [.pdepVs])

/-- The commands that extract. -/
def pextInstrs : List Instr := .pextRef :: (tablePextInstrs ++ [.pextVs, .pextCf])

theorem exec_pdepVs {s : State} (htv : s.tv = true) (h : TablesHold s.tmem) :
    exec .pdepVs s = .next (complete s .ok (some (pdep s.la s.lb))) := by
  rw [exec, execPdepVs, whenBuilt_built htv, h.pdepVs_eq]
  rfl

theorem exec_pextVs {s : State} (htv : s.tv = true) (h : TablesHold s.tmem) :
    exec .pextVs s = .next (complete s .ok (some (pext s.la s.lb))) := by
  rw [exec, execPextVs, whenBuilt_built htv, h.pextVs_eq]
  rfl

/-- R211: PEXT.CF needs no tables. -/
theorem exec_pextCf (s : State) : exec .pextCf s = .next (complete s .ok (some (pext s.la s.lb))) := by
  rw [exec, execPextCf, pextClosed_eq]
  rfl

theorem exec_pdepInstrs {i : Instr} (hi : i ∈ pdepInstrs) {s : State} (htv : s.tv = true) (h : TablesHold s.tmem) :
    exec i s = .next (complete s .ok (some (pdep s.la s.lb))) := by
  simp only [pdepInstrs, List.mem_cons, List.mem_append, List.not_mem_nil, or_false] at hi
  rcases hi with rfl | hi | rfl
  · rfl
  · exact (tablePdepCommandsDeposit i hi s).1 htv h
  · exact exec_pdepVs htv h

theorem exec_pextInstrs {i : Instr} (hi : i ∈ pextInstrs) {s : State} (htv : s.tv = true) (h : TablesHold s.tmem) :
    exec i s = .next (complete s .ok (some (pext s.la s.lb))) := by
  simp only [pextInstrs, List.mem_cons, List.mem_append, List.not_mem_nil, or_false] at hi
  rcases hi with rfl | hi | rfl | rfl
  · rfl
  · exact (tablePextCommandsExtract i hi s).1 htv h
  · exact exec_pextVs htv h
  · exact exec_pextCf s

/-! The host's steps and the Engine's, as R79 writes them. -/

theorem regAt_offset (r : Reg) : regAt r.offset = some r := by cases r <;> rfl

theorem accessAccepted_offset (r : Reg) : accessAccepted r.offset 8 = true := by cases r <;> rfl

/-- `ST` writes the register. -/
theorem step_hostSt {s : State} {r : Reg} {v : Word} {rest : List Input} (h : s.inputs = .host (hostSt r v) :: rest) :
    step s = .next { writeReg { s with inputs := rest } r v with reply := .written } := by
  rw [step_cons h]
  simp only [move, hostSt, hostStep, accessAccepted_offset, if_true, windowWrite, regAt_offset]

/-- `LD` is answered with the register and changes nothing (R58). -/
theorem step_hostLd {s : State} {r : Reg} {rest : List Input} (h : s.inputs = .host (hostLd r) :: rest) :
    step s = .next { s with inputs := rest, reply := .data (readReg { s with inputs := rest } r) } := by
  rw [step_cons h]
  simp only [move, hostLd, hostStep, accessAccepted_offset, if_true, windowRead, regAt_offset]

/-- Reads of one register, one after another, change nothing but the answer. -/
theorem run_hostLd (n : Nat) {s : State} {r : Reg} {rest : List Input}
    (h : s.inputs = List.replicate n (.host (hostLd r)) ++ rest) :
    ∃ reply, run n s = .next { s with inputs := rest, reply := reply } := by
  induction n generalizing s with
  | zero =>
    refine ⟨s.reply, ?_⟩
    rw [List.replicate_zero, List.nil_append] at h
    rw [← h]
    rfl
  | succ n ih =>
    rw [List.replicate_succ, List.cons_append] at h
    obtain ⟨reply, hrun⟩ := ih (s := { s with
      inputs := List.replicate n (.host (hostLd r)) ++ rest
      reply := .data (readReg { s with inputs := List.replicate n (.host (hostLd r)) ++ rest } r) }) rfl
    exact ⟨reply, by rw [run_succ_next n (step_hostLd h), hrun]⟩

/-- R243: the Engine's turn while BUSY = 1 is the completion of the latched command. -/
theorem step_engine {s : State} {i : Instr} {rest : List Input} (h : s.inputs = .engine :: rest) (hb : s.busy = true)
    (hd : decodeLatched s.lop s.lrsv = .ok i) : step s = exec i { s with inputs := rest } := by
  rw [step_cons h]
  simp only [move, engineTurn, hb, if_true, completion, hd]

/-- R74, R76: the word of a command decodes to it. -/
theorem decodeWord_encode (i : Instr) : decodeWord (encode i) = .ok i := by cases i <;> rfl

theorem encode_ne_one {i : Instr} (h : i ≠ .build) : encode i ≠ 0x0000000000000001 := fun he =>
  h (Except.ok.inj ((decodeWord_encode i).symm.trans (congrArg decodeWord he)))

/-! The whole CALL. -/

/-- The state once an idle PTE has been given the operands `a` and `b` and the command `i`, `rest` still to come. -/
def issued (s : State) (i : Instr) (a b : Word) (rest : List Input) : State :=
  { acceptCommand { s with opa := a, opb := b, inputs := rest } (encode i) with reply := .written }

/-- The first three moves of `CALL`. -/
theorem run_issue {s : State} {i : Instr} {a b : Word} {rest : List Input} (hb : s.busy = false)
    (h : s.inputs = .host (hostSt .opa a) :: .host (hostSt .opb b) :: .host (hostIssue i) :: rest) :
    run 3 s = .next (issued s i a b rest) := by
  rw [run_succ_next 2 (step_hostSt h), run_succ_next 1 (step_hostSt (r := .opb) (v := b) rfl), run_one,
    step_hostSt (r := .cmd) (v := encode i) rfl]
  simp only [writeReg, requestCommand, hb]
  rfl

/-- The last three moves of `CALL`: the completion, the poll that finds BUSY = 0, and the read of RESULT. -/
theorem run_completion {u : State} {i : Instr} {v : Word} {rest : List Input} (hb : u.busy = true)
    (hd : decodeLatched u.lop u.lrsv = .ok i)
    (h : u.inputs = .engine :: .host (hostLd .status) :: .host (hostLd .result) :: rest)
    (hexec : ∀ inputs, exec i { u with inputs := inputs } = .next (complete { u with inputs := inputs } .ok (some v))) :
    run 3 u = .next { complete u .ok (some v) with inputs := rest, reply := .data v } := by
  rw [run_succ_next 2 ((step_engine h hb hd).trans (hexec _)), run_succ_next 1 (step_hostLd rfl), run_one,
    step_hostLd rfl]
  rfl

theorem callMoves_append (i : Instr) (a b : Word) (n : Nat) (rest : List Input) :
    callMoves i a b n ++ rest = .host (hostSt .opa a) :: .host (hostSt .opb b) :: .host (hostIssue i)
      :: (List.replicate n (.host (hostLd .status))
        ++ .engine :: .host (hostLd .status) :: .host (hostLd .result) :: rest) := by
  simp [callMoves]

/-- `CALL` ends with what the command's completion answers on the operands, if that is a result. -/
theorem run_call {s : State} {i : Instr} {a b v : Word} {n : Nat} {rest : List Input} (hi : i ≠ .build)
    (hb : s.busy = false) (htv : s.tv = true) (h : s.inputs = callMoves i a b n ++ rest)
    (hexec : ∀ u : State, u.la = a → u.lb = b → u.tv = true → u.tmem = s.tmem → exec i u = .next (complete u .ok (some v))) :
    ∃ t, run (n + 6) s = .next t ∧ t.reply = .data v ∧ t.err = .ok ∧ t.busy = false ∧ t.tv = true
      ∧ t.ovr = false ∧ t.inputs = rest := by
  have hissue := run_issue hb (h.trans (callMoves_append i a b n rest))
  obtain ⟨reply, hpoll⟩ := run_hostLd n (s := issued s i a b _) rfl
  have htv' : (issued s i a b rest).tv = true := (if_neg (encode_ne_one hi)).trans htv
  refine ⟨{ complete (issued s i a b rest) .ok (some v) with reply := .data v }, ?_, rfl, rfl, rfl, htv', rfl, rfl⟩
  rw [show n + 6 = 3 + (n + 3) by omega, run_add_next _ hissue, run_add_next _ hpoll]
  exact run_completion rfl (decodeWord_encode i) rfl fun _ => hexec _ rfl rfl htv' rfl

/-- Settles O59: each command's completion answers the Oracle's value on the operands the CALL wrote. -/
theorem callReturnsTheOracleValue : Obligations.CallReturnsTheOracleValue := by
  intro s a b n rest i hinv hb htv h
  have htables := hinv.tables htv
  constructor
  · intro hi
    refine run_call (by rintro rfl; revert hi; decide) hb htv h fun u ha hb hutv hm => ?_
    rw [← ha, ← hb]
    exact exec_pdepInstrs hi hutv (hm ▸ htables)
  · intro hi
    refine run_call (by rintro rfl; revert hi; decide) hb htv h fun u ha hb hutv hm => ?_
    rw [← ha, ← hb]
    exact exec_pextInstrs hi hutv (hm ▸ htables)

end Sys2Proof.Machine

/-! PROOFS. The reset contents no run shows (10_state.md R34, 70_reset_and_hazards.md R271): two states that differ only in
what reset leaves unspecified stay so, step by step. -/

namespace Sys2Proof.Machine

/-! The two cases of a CMD write (R31) and of the Engine's turn (R243, R255). -/

theorem requestCommand_busy {s : State} (h : s.busy = true) (v : Word) : requestCommand s v = dropCommand s := by
  rw [requestCommand, if_pos h]

theorem requestCommand_idle {s : State} (h : s.busy = false) (v : Word) : requestCommand s v = acceptCommand s v := by
  rw [requestCommand, h, if_neg Bool.false_ne_true]

theorem engineTurn_busy {s : State} (h : s.busy = true) : engineTurn s = completion s := by
  rw [engineTurn, if_pos h]

theorem engineTurn_idle {s : State} (h : s.busy = false) : engineTurn s = .next s := by
  rw [engineTurn, h, if_neg Bool.false_ne_true]

/-! What a completion makes of TMEM contents it may not read (R244). -/

/-- While TV = 0 a command other than BUILD completes in the same way whatever TMEM holds. -/
theorem exec_of_tv_false {i : Instr} (hi : i ≠ .build) {s : State} (htv : s.tv = false) :
    ∃ e res, ∀ m : Memory, exec i { s with tmem := m } = .next (complete { s with tmem := m } e res) := by
  have ranked : ∀ f, ∃ e res, ∀ m : Memory,
      withRank { s with tmem := m } f = .next (complete { s with tmem := m } e res) := by
    intro f
    rcases withRank_cases s f with ⟨hk, -⟩ | ⟨h0, h63, -⟩
    · exact ⟨.kRange, none, fun m => withRank_outOfRange (s := { s with tmem := m }) hk f⟩
    · exact ⟨.ok, some (f s.la (operandRank s).toNat), fun m => withRank_inRange (s := { s with tmem := m }) h0 h63 f⟩
  cases i with
  | build => exact absurd rfl hi
  | nop => exact ⟨.ok, none, fun _ => rfl⟩
  | pextCf => exact ⟨.ok, some (pextClosed s.la s.lb), fun _ => rfl⟩
  | pdepRef => exact ⟨.ok, some (pdep s.la s.lb), fun _ => rfl⟩
  | pextRef => exact ⟨.ok, some (pext s.la s.lb), fun _ => rfl⟩
  | popcntRef => exact ⟨.ok, some (BitVec.ofNat 64 (popcount s.la)), fun _ => rfl⟩
  | sel1Naive | sel1Clear | sel1Bsearch | sel1Pdep => exact ranked _
  | _ => exact ⟨.notBuilt, none, fun m => whenBuilt_notBuilt (s := { s with tmem := m }) htv _⟩

/-- BUILD reads no TMEM and leaves none of the old contents. -/
theorem exec_build_tmem (s : State) (m : Memory) : exec .build { s with tmem := m } = exec .build s := rfl

/-! States that differ in hidden contents only. -/

/-- `u` is `s` but for what reset leaves unspecified: the latches, which agree while a command is in flight (R34), and
TMEM, which agrees while TV = 1 (R271). -/
inductive Alike (s : State) : State → Prop where
  | intro (m : Memory) (lop : BitVec 8) (lrsv : Bool) (la lb : Word)
      (latches : s.busy = true → lop = s.lop ∧ lrsv = s.lrsv ∧ la = s.la ∧ lb = s.lb)
      (tables : s.tv = true → m = s.tmem) :
      Alike s { s with tmem := m, lop := lop, lrsv := lrsv, la := la, lb := lb }

/-- Two outcomes that stop alike, or go on from alike states. -/
inductive AlikeOutcomes : Host.Outcome State Fault Refusal → Host.Outcome State Fault Refusal → Prop where
  | next {s u : State} (h : Alike s u) : AlikeOutcomes (.next s) (.next u)
  | fault (f : Fault) : AlikeOutcomes (.fault f) (.fault f)
  | refused (q : Refusal) : AlikeOutcomes (.refused q) (.refused q)

theorem Alike.refl (s : State) : Alike s s :=
  .intro s.tmem s.lop s.lrsv s.la s.lb (fun _ => ⟨rfl, rfl, rfl, rfl⟩) fun _ => rfl

theorem AlikeOutcomes.refl (o : Host.Outcome State Fault Refusal) : AlikeOutcomes o o := by
  cases o with
  | next s => exact .next (.refl s)
  | fault f => exact .fault f
  | refused q => exact .refused q

theorem AlikeOutcomes.observed_eq {o p : Host.Outcome State Fault Refusal} (h : AlikeOutcomes o p) :
    observed o = observed p := by
  cases h with
  | next h => cases h; rfl
  | fault f => rfl
  | refused q => rfl

theorem Alike.busy_eq {s u : State} (h : Alike s u) : u.busy = s.busy := by cases h; rfl

theorem Alike.inputs_eq {s u : State} (h : Alike s u) : u.inputs = s.inputs := by cases h; rfl

/-! The Host's steps. -/

theorem Alike.withInputs {s u : State} (h : Alike s u) (is : List Input) :
    Alike { s with inputs := is } { u with inputs := is } := by
  obtain ⟨m, lop, lrsv, la, lb, latches, tables⟩ := h
  exact .intro m lop lrsv la lb latches tables

theorem Alike.withReply {s u : State} (h : Alike s u) (r : Reply) :
    Alike { s with reply := r } { u with reply := r } := by
  obtain ⟨m, lop, lrsv, la, lb, latches, tables⟩ := h
  exact .intro m lop lrsv la lb latches tables

/-- No register of the window shows them (R29, R33). -/
theorem Alike.windowRead_eq {s u : State} (h : Alike s u) (off : Nat) : windowRead s off = windowRead u off := by
  obtain ⟨m, lop, lrsv, la, lb, latches, tables⟩ := h
  unfold windowRead
  match regAt off with
  | none => rfl
  | some r => cases r <;> rfl

/-- An acceptance does not set TV (R31). -/
theorem tv_of_acceptCommand_tv {s : State} {v : Word} (h : (acceptCommand s v).tv = true) : s.tv = true := by
  rw [acceptCommand_tv, Bool.if_false_left, Bool.and_eq_true] at h
  exact h.2

/-- An acceptance overwrites every latch (R31). -/
theorem Alike.requestCommand {s u : State} (h : Alike s u) (v : Word) :
    Alike (requestCommand s v) (requestCommand u v) := by
  cases hb : s.busy with
  | true =>
    rw [requestCommand_busy hb, requestCommand_busy (h.busy_eq.trans hb)]
    obtain ⟨m, lop, lrsv, la, lb, latches, tables⟩ := h
    exact .intro m lop lrsv la lb latches tables
  | false =>
    rw [requestCommand_idle hb, requestCommand_idle (h.busy_eq.trans hb)]
    obtain ⟨m, lop, lrsv, la, lb, latches, tables⟩ := h
    exact .intro m _ _ _ _ (fun _ => ⟨rfl, rfl, rfl, rfl⟩) fun htv => tables (tv_of_acceptCommand_tv htv)

theorem Alike.windowWrite {s u : State} (h : Alike s u) (off : Nat) (v : Word) :
    Alike (windowWrite s off v) (windowWrite u off v) := by
  unfold Machine.windowWrite
  match regAt off with
  | none | some .result | some .status => exact h
  | some .cmd => exact h.requestCommand v
  | some .opa =>
    obtain ⟨m, lop, lrsv, la, lb, latches, tables⟩ := h
    exact .intro m lop lrsv la lb latches tables
  | some .opb =>
    obtain ⟨m, lop, lrsv, la, lb, latches, tables⟩ := h
    exact .intro m lop lrsv la lb latches tables

theorem Alike.hostStep {s u : State} (h : Alike s u) (a : HostAccess) :
    AlikeOutcomes (hostStep s a) (hostStep u a) := by
  cases a with
  | read off width =>
    simp only [Machine.hostStep, h.windowRead_eq off]
    split
    · exact .next (h.withReply _)
    · exact .refl _
  | write off width v =>
    simp only [Machine.hostStep]
    split
    · exact .next ((h.windowWrite off v).withReply _)
    · exact .refl _

/-! The Engine's turn. -/

/-- A command reads TMEM only while TV = 1. -/
theorem exec_alike (i : Instr) (s : State) {m : Memory} (h : s.tv = true → m = s.tmem) :
    AlikeOutcomes (exec i s) (exec i { s with tmem := m }) := by
  by_cases hi : i = .build
  · rw [hi, exec_build_tmem]
    exact .refl _
  · by_cases htv : s.tv = true
    · rw [h htv]
      exact .refl _
    · obtain ⟨e, res, hexec⟩ := exec_of_tv_false hi (Bool.eq_false_iff.mpr htv)
      rw [hexec m, show exec i s = _ from hexec s.tmem]
      exact .next (.intro m _ _ _ _ (fun _ => ⟨rfl, rfl, rfl, rfl⟩) h)

theorem Alike.engineTurn {s u : State} (h : Alike s u) : AlikeOutcomes (engineTurn s) (engineTurn u) := by
  cases hb : s.busy with
  | true =>
    rw [engineTurn_busy hb, engineTurn_busy (h.busy_eq.trans hb)]
    obtain ⟨m, lop, lrsv, la, lb, latches, tables⟩ := h
    obtain ⟨rfl, rfl, rfl, rfl⟩ := latches hb
    simp only [completion]
    split
    · exact exec_alike _ s tables
    · exact .next (s := completeIllegal s) (.intro m _ _ _ _ (fun _ => ⟨rfl, rfl, rfl, rfl⟩) tables)
  | false =>
    rw [engineTurn_idle hb, engineTurn_idle (h.busy_eq.trans hb)]
    exact .next h

/-! Steps and runs. -/

theorem Alike.step {s u : State} (h : Alike s u) : AlikeOutcomes (step s) (step u) := by
  rcases step_cases s with ⟨hs, e⟩ | ⟨rest, hs, e⟩ | ⟨rest, hs, e⟩ | ⟨a, rest, hs, e⟩ <;> rw [e]
  · rw [step_nil (h.inputs_eq.trans hs)]
    exact h.engineTurn
  · rw [step_cons (h.inputs_eq.trans hs)]
    exact (h.withInputs rest).engineTurn
  · rw [step_cons (h.inputs_eq.trans hs)]
    exact .refl _
  · rw [step_cons (h.inputs_eq.trans hs)]
    exact (h.withInputs rest).hostStep a

theorem Alike.run {s u : State} (h : Alike s u) (n : Nat) : AlikeOutcomes (run n s) (run n u) := by
  induction n generalizing s u with
  | zero => exact .next h
  | succ n ih =>
    unfold Machine.run
    generalize hs : Machine.step s = o, hu : Machine.step u = p
    cases (hs ▸ hu ▸ h.step : AlikeOutcomes o p) with
    | next h' => exact ih h'
    | fault f => exact .fault f
    | refused q => exact .refused q

/-- Settles O55, by the simulation `Alike`, which holds at the start because nothing is in flight and TV = 0. -/
theorem hiddenResetContentsAreUnobservable : Obligations.HiddenResetContentsAreUnobservable := by
  intro n s m lop lrsv la lb hb htv
  have halike : Alike s { s with tmem := m, lop := lop, lrsv := lrsv, la := la, lb := lb } :=
    .intro m lop lrsv la lb (fun h => absurd (hb.symm.trans h) Bool.false_ne_true)
      fun h => absurd (htv.symm.trans h) Bool.false_ne_true
  exact (halike.run n).observed_eq.symm

end Sys2Proof.Machine

/-! PROOFS. Frames (10_state.md R24, R26, R33): what a completion leaves unchanged, and which offsets the MemWrites of BUILD
reach (41_table_builder.md R128). -/

namespace Sys2Proof.Machine

/-! The two shapes of a completion. -/

/-- Every command but BUILD ends in the shared completion, NOP without a result. -/
theorem exec_next_complete {i : Instr} {s t : State} (hi : i ≠ .build) (h : exec i s = .next t) :
    ∃ e res, t = complete s e res ∧ (i = .nop → res = none) := by
  generalize ho : exec i s = o at h
  cases (ho ▸ exec_completed i s : Completed i s o) with
  | notBuilt | kRange | badIndex | nop => cases h; exact ⟨_, none, rfl, fun _ => rfl⟩
  | result hn => cases h; exact ⟨_, _, rfl, fun hnop => absurd hnop hn⟩
  | build hb | buildInconsistent hb => exact absurd hb hi
  | fault => cases h

/-- BUILD installs the tables; a self-check that fires (R130) would leave TMEM without values. -/
theorem exec_build_next {s t : State} (h : exec .build s = .next t) :
    t = completeBuild s tableImage ∨ t = completeBuildInconsistent s := by
  simp only [exec, execBuild] at h
  split at h <;> injection h with h
  · exact .inl h.symm
  · exact .inr h.symm

/-- Only ERR = OK lets a result through (R24). -/
theorem completedResult_of_ne_ok (old : Word) {e : ErrCode} (he : e ≠ .ok) (res : Option Word) :
    completedResult old e res = old := by
  cases e with
  | ok => exact absurd rfl he
  | _ => rfl

/-- Settles O47: every field but RESULT, ERR and BUSY passes through `complete`. -/
theorem commandFrame : Obligations.CommandFrame := by
  intro i s t hi h
  obtain ⟨e, res, rfl, hnop⟩ := exec_next_complete hi h
  refine ⟨rfl, rfl, rfl, rfl, rfl, rfl, rfl, rfl, rfl, rfl, rfl, fun he => completedResult_of_ne_ok _ he res,
    fun hi => ?_, fun _ => rfl⟩
  rw [hnop hi]
  exact completedResult_none s.result e

/-! The offsets the MemWrites of R128 address. -/

theorem mem_buildWrites_of_width {w : ChunkWidth} {c : Nat × Byte} (hc : c ∈ widthWrites w) : c ∈ buildWrites := by
  cases w with
  | w16 => exact List.mem_append_left _ (List.mem_append_left _ hc)
  | w256 => exact List.mem_append_left _ (List.mem_append_right _ hc)

theorem mem_buildWrites_of_pair {w : ChunkWidth} {x y : Nat} {c : Nat × Byte} (hx : x < w.values) (hy : y < w.values)
    (hc : c ∈ pairWrites w x y) : c ∈ buildWrites :=
  mem_buildWrites_of_width <| List.mem_append_left _ <|
    List.mem_flatMap.mpr ⟨x, List.mem_range.mpr hx, List.mem_flatMap.mpr ⟨y, List.mem_range.mpr hy, hc⟩⟩

/-- Row and column of an entry make its offset. -/
theorem add_row_add_column (b n k : Nat) : b + n * (k / n) + k % n = b + k := by
  rw [Nat.add_assoc, Nat.div_add_mod]

/-- The MemWrites of the loop body reach every entry of the four tables of a width; a forward table has the value chunk as
its row, an inverse table the mask chunk. -/
theorem exists_buildWrite_of_entry {w : ChunkWidth} (t : Table) (o : Orientation)
    (ht : t = pdepTable w o ∨ t = pextTable w o) {k : Nat} (hk : k < w.values * w.values) :
    ∃ c ∈ buildWrites, c.1 = t.base + k := by
  have hrow : k / w.values < w.values := Nat.div_lt_of_lt_mul hk
  have hcol : k % w.values < w.values := Nat.mod_lt _ w.values_pos
  rcases ht with rfl | rfl <;> cases o
  · exact ⟨_, mem_buildWrites_of_pair hrow hcol (.head _), add_row_add_column ..⟩
  · exact ⟨_, mem_buildWrites_of_pair hcol hrow (.tail _ (.tail _ (.head _))), add_row_add_column ..⟩
  · exact ⟨_, mem_buildWrites_of_pair hrow hcol (.tail _ (.head _)), add_row_add_column ..⟩
  · exact ⟨_, mem_buildWrites_of_pair hcol hrow (.tail _ (.tail _ (.tail _ (.head _)))), add_row_add_column ..⟩

theorem exists_buildWrite_of_pop (w : ChunkWidth) {y : Nat} (hy : y < w.values) :
    ∃ c ∈ buildWrites, c.1 = (popTable w).base + y := by
  have hw : ((popTable w).base + y, chunkPop y) ∈ widthWrites w :=
    List.mem_append_right _ (List.mem_map.mpr ⟨y, List.mem_range.mpr hy, rfl⟩)
  exact ⟨_, mem_buildWrites_of_width hw, rfl⟩

theorem exists_buildWrite_of_lane (t : Table) (ht : t = .lp ∨ t = .lx) {k : Nat} (hk : k < 16 * 16) :
    ∃ c ∈ buildWrites, c.1 = t.base + k := by
  have hrow : k / 16 ∈ List.range 16 := List.mem_range.mpr (Nat.div_lt_of_lt_mul hk)
  have hcol : k % 16 ∈ List.range 16 := List.mem_range.mpr (Nat.mod_lt _ (by decide))
  have hlane : ∀ c ∈ [(Table.lp.base + 16 * (k / 16) + k % 16, (chunkPdep (k / 16) (k % 16)).setWidth 8),
      (Table.lx.base + 16 * (k / 16) + k % 16, (chunkPext (k / 16) (k % 16)).setWidth 8)], c ∈ buildWrites := fun c hc =>
    List.mem_append_right _ (List.mem_flatMap.mpr ⟨_, hrow, List.mem_flatMap.mpr ⟨_, hcol, hc⟩⟩)
  rcases ht with rfl | rfl
  · exact ⟨_, hlane _ (.head _), add_row_add_column ..⟩
  · exact ⟨_, hlane _ (.tail _ (.head _)), add_row_add_column ..⟩

/-- Every byte of every table is written. -/
theorem exists_buildWrite_of_table (t : Table) {k : Nat} (hk : k < t.size) : ∃ c ∈ buildWrites, c.1 = t.base + k := by
  cases t with
  | tp16 => exact exists_buildWrite_of_entry (w := .w16) _ .forward (.inl rfl) hk
  | tx16 => exact exists_buildWrite_of_entry (w := .w16) _ .forward (.inr rfl) hk
  | tpi16 => exact exists_buildWrite_of_entry (w := .w16) _ .inverse (.inl rfl) hk
  | txi16 => exact exists_buildWrite_of_entry (w := .w16) _ .inverse (.inr rfl) hk
  | tp256 => exact exists_buildWrite_of_entry (w := .w256) _ .forward (.inl rfl) hk
  | tx256 => exact exists_buildWrite_of_entry (w := .w256) _ .forward (.inr rfl) hk
  | tpi256 => exact exists_buildWrite_of_entry (w := .w256) _ .inverse (.inl rfl) hk
  | txi256 => exact exists_buildWrite_of_entry (w := .w256) _ .inverse (.inr rfl) hk
  | p16 => exact exists_buildWrite_of_pop .w16 hk
  | p256 => exact exists_buildWrite_of_pop .w256 hk
  | lp => exact exists_buildWrite_of_lane _ (.inl rfl) hk
  | lx => exact exists_buildWrite_of_lane _ (.inr rfl) hk

/-- An offset no MemWrite of BUILD addresses has no storage (R54, R128). -/
theorem tmemHole_of_not_written {a : Nat} (h : ∀ c ∈ buildWrites, a ≠ c.1) : tmemHole a = true := by
  by_contra hbacked
  obtain ⟨t, o, ho, rfl⟩ := Table.of_backed (Bool.eq_false_iff.mpr hbacked)
  obtain ⟨c, hc, hc1⟩ := exists_buildWrite_of_table t ho
  exact h c hc hc1.symm

theorem OnlyBacked.read_hole {m : Memory} (hm : OnlyBacked m) {a : Nat} (ha : tmemHole a = true) : m.read a = none :=
  Memory.read_eq_none_of_not_listed fun c hc he => by
    have := hm c hc
    rw [he, ha] at this
    cases this

/-- Settles O48: an offset BUILD does not write is a hole, and a hole reads as nothing before and after. -/
theorem buildFrame : Obligations.BuildFrame := by
  intro s t h
  have hbacked : OnlyBacked t.tmem := by
    rcases exec_build_next h with rfl | rfl
    · exact fun _ => tableImage_backed
    · exact fun _ hc => nomatch hc
  have hmem : OnlyBacked s.tmem → ∀ a, (∀ c ∈ buildWrites, a ≠ c.1) → t.tmem.read a = s.tmem.read a :=
    fun hs a ha => (hbacked.read_hole (tmemHole_of_not_written ha)).trans
      (hs.read_hole (tmemHole_of_not_written ha)).symm
  rcases exec_build_next h with rfl | rfl <;>
    exact ⟨rfl, rfl, rfl, rfl, rfl, rfl, rfl, rfl, rfl, rfl, rfl, hmem⟩

end Sys2Proof.Machine

/-! PROOFS. The events of PTE (10_state.md R26): one inversion lemma lists the events a step can be, with the state each
leaves, and the two statements about STATUS and about the data read their clauses off that list. -/

namespace Sys2Proof.Machine

/-- Everything a step of `s` can leave, each state under the event that leads to it. -/
inductive Event (s : State) : State → Prop where
  /-- A read, an ignored write, or the turn of an idle Engine (R58, R255). -/
  | none (rest : List Input) (r : Reply) : Event s { s with inputs := rest, reply := r }
  | writeOpa (v : Word) (h : writesNext s 0x00 v) (rest : List Input) (r : Reply) :
      Event s { s with opa := v, inputs := rest, reply := r }
  | writeOpb (v : Word) (h : writesNext s 0x08 v) (rest : List Input) (r : Reply) :
      Event s { s with opb := v, inputs := rest, reply := r }
  | drop (h : dropsNext s) (rest : List Input) (r : Reply) :
      Event s { dropCommand s with inputs := rest, reply := r }
  | accept (v : Word) (h : acceptsNext s v) (rest : List Input) (r : Reply) :
      Event s { acceptCommand s v with inputs := rest, reply := r }
  | reset (h : resetsNext s) (rest : List Input) : Event s (resetInput { s with inputs := rest })
  /-- A completion of an illegal word, or of a command other than BUILD; only a command other than NOP has a result. -/
  | complete (h : completesNext s = true) (e : ErrCode) (res : Option Word)
      (hres : res ≠ .none → ∃ i, decodeLatched s.lop s.lrsv = .ok i ∧ i ≠ .nop ∧ i ≠ .build) (rest : List Input) :
      Event s { Machine.complete s e res with inputs := rest }
  | build (h : completesNext s = true) (hd : decodeLatched s.lop s.lrsv = .ok .build) (rest : List Input) :
      Event s { completeBuild s tableImage with inputs := rest }
  | buildInconsistent (h : completesNext s = true) (hd : decodeLatched s.lop s.lrsv = .ok .build) (rest : List Input) :
      Event s { completeBuildInconsistent s with inputs := rest }

/-- The Engine's turn, the moves to come being `rest`. -/
theorem event_of_engineTurn {s t : State} {rest : List Input} (hturn : s.busy = true → completesNext s = true)
    (h : engineTurn { s with inputs := rest } = .next t) : Event s t := by
  rcases engineTurn_cases { s with inputs := rest } with ⟨-, e⟩ | ⟨hb, i, hd, e⟩ | ⟨hb, r, hd, e⟩ <;> rw [e] at h
  · cases h
    exact .none rest s.reply
  · by_cases hi : i = .build
    · subst hi
      rcases exec_build_next h with rfl | rfl
      · exact .build (hturn hb) hd rest
      · exact .buildInconsistent (hturn hb) hd rest
    · obtain ⟨e, res, rfl, hnop⟩ := exec_next_complete hi h
      exact .complete (hturn hb) e res (fun hres => ⟨i, hd, mt hnop hres, hi⟩) rest
  · cases h
    exact .complete (hturn hb) .illegalOp .none (fun hres => absurd rfl hres) rest

/-- The offset of a register (R20). -/
theorem eq_offset_of_regAt {off : Nat} {r : Reg} (h : regAt off = some r) : off = r.offset :=
  (beq_iff_eq.mp (List.find?_some (p := fun r : Reg => r.offset == off) h)).symm

/-- The Host's access, the moves after it being `rest`. -/
theorem event_of_hostStep {s t : State} {a : HostAccess} {rest : List Input} (hs : s.inputs = .host a :: rest)
    (h : hostStep { s with inputs := rest } a = .next t) : Event s t := by
  rcases hostStep_cases { s with inputs := rest } a with ⟨off, -, -, e⟩ | ⟨off, v, -, rfl, e⟩ | e <;> rw [e] at h
  · cases h
    exact .none rest _
  · have hwrite : ∀ {r : Reg}, regAt off = some r → writesNext s r.offset v := fun hr =>
      ⟨rest, eq_offset_of_regAt hr ▸ hs⟩
    rcases windowWrite_cases { s with inputs := rest } off v with
      ⟨hr, e⟩ | ⟨hr, e⟩ | ⟨hr, hb, e⟩ | ⟨hr, hb, e⟩ | e <;> rw [e] at h <;> cases h
    · exact .writeOpa v (hwrite hr) rest _
    · exact .writeOpb v (hwrite hr) rest _
    · exact .drop (s := s) ⟨hb, v, hwrite hr⟩ rest _
    · exact .accept (s := s) v ⟨hb, hwrite hr⟩ rest _
    · exact .none rest _
  · cases h

/-- The inversion lemma of `step` by events. -/
theorem event_of_step {s t : State} (h : step s = .next t) : Event s t := by
  rcases step_cases s with ⟨hs, e⟩ | ⟨rest, hs, e⟩ | ⟨rest, hs, e⟩ | ⟨a, rest, hs, e⟩ <;> rw [e] at h
  · exact event_of_engineTurn (rest := s.inputs) (fun hb => by simp [completesNext, hb, hs]) h
  · exact event_of_engineTurn (fun hb => by simp [completesNext, hb, hs]) h
  · cases h
    exact .reset ⟨rest, hs⟩ rest
  · exact event_of_hostStep hs h

/-- No error code exceeds 5 (R240). -/
@[simp] theorem ErrCode.code_le (e : ErrCode) : e.code.toNat ≤ 5 := by cases e <;> decide

/-- Only a completion with ERR = OK and a result changes RESULT (R24). -/
theorem of_completedResult_ne {old : Word} {e : ErrCode} {res : Option Word} (h : completedResult old e res ≠ old) :
    e = .ok ∧ res ≠ none := by
  constructor
  · by_contra he
    exact h (completedResult_of_ne_ok old he res)
  · rintro rfl
    exact h (completedResult_none old e)

/-- Only the word of BUILD changes TV at its acceptance (R31). -/
theorem of_acceptCommand_tv_ne {s : State} {v : Word} (h : (acceptCommand s v).tv ≠ s.tv) :
    v = encode .build ∧ (acceptCommand s v).tv = false := by
  by_cases hv : v = 0x0000000000000001
  · exact ⟨hv, if_pos hv⟩
  · exact absurd (if_neg hv) h

/-- Settles O49: each event's own changes of STATUS. -/
theorem onlyTheListedEventsChangeStatus : Obligations.OnlyTheListedEventsChangeStatus := by
  intro s t h
  cases event_of_step h with
  | none | writeOpa | writeOpb => simp
  | drop hd => simp [hd]
  | accept v hv =>
    refine ⟨fun _ => .inl ⟨⟨v, hv⟩, rfl⟩, fun hne => .inl ?_, fun _ => .inr (.inl ⟨⟨v, hv⟩, rfl⟩), by simp, by simp⟩
    obtain ⟨rfl, htv⟩ := of_acceptCommand_tv_ne hne
    exact ⟨hv, htv⟩
  | reset hr => simp [hr]
  | complete hc => simp [hc]
  | build hc hd => simp [hc, hd]
  | buildInconsistent hc => simp [hc]

/-- Settles O50: each event's own changes of the registers, TMEM and the latches. -/
theorem onlyTheListedEventsChangeData : Obligations.OnlyTheListedEventsChangeData := by
  intro s t h
  cases event_of_step h with
  | none => simp
  | writeOpa v hv => simp [hv]
  | writeOpb v hv => simp [hv]
  | drop => simp
  | accept v hv => simp [show ∃ v, acceptsNext s v from ⟨v, hv⟩]
  | reset hr => simp [hr]
  | complete hc e res hres =>
    refine ⟨by simp, by simp, fun hne => ?_, by simp, by simp⟩
    obtain ⟨he, hsome⟩ := of_completedResult_ne hne
    exact .inl ⟨hc, he, hres hsome⟩
  | build hc hd => simp [hc, hd]
  | buildInconsistent hc hd => simp [hc, hd]

end Sys2Proof.Machine

/-! PROOFS. The register window (10_state.md R20 to R31): what the Host's aligned accesses do, and the STATUS word. -/

namespace Sys2Proof.Machine

/-! One step of the Host, at any offset the window accepts. -/

/-- An accepted read is answered with the offset's value and changes nothing else (R58). -/
theorem step_read {s : State} {off : Nat} {rest : List Input} (ha : accessAccepted off 8 = true)
    (h : s.inputs = .host (.read off 8) :: rest) :
    step s = .next { s with inputs := rest, reply := .data (windowRead { s with inputs := rest } off) } := by
  rw [step_cons h, move, hostStep, if_pos ha]

/-- An accepted write does what the register at its offset makes of it (R58). -/
theorem step_write {s : State} {off : Nat} {v : Word} {rest : List Input} (ha : accessAccepted off 8 = true)
    (h : s.inputs = .host (.write off 8 v) :: rest) :
    step s = .next { windowWrite { s with inputs := rest } off v with reply := .written } := by
  rw [step_cons h, move, hostStep, if_pos ha]

/-- Settles O8, offset by offset. -/
theorem hostReadReturnsTheRegister : Obligations.HostReadReturnsTheRegister := by
  intro s off v rest h hmem
  simp only [List.mem_cons, List.not_mem_nil, or_false, Prod.mk.injEq] at hmem
  rcases hmem with ⟨rfl, rfl⟩ | ⟨rfl, rfl⟩ | ⟨rfl, rfl⟩ | ⟨rfl, rfl⟩ | ⟨rfl, rfl⟩ | ⟨rfl, rfl⟩ | ⟨rfl, rfl⟩ | ⟨rfl, rfl⟩ <;>
    exact step_read rfl h

/-- Settles O9: the write stores the value, and the read after it is answered from there. -/
theorem operandWriteThenReadReturnsTheValue : Obligations.OperandWriteThenReadReturnsTheValue := by
  intro s v rest
  constructor <;> intro h
  · have hwrite := step_operandWrite (w := (true, v)) h
    exact ⟨hwrite, (run_succ_next 1 hwrite).trans ((run_one _).trans (step_read (off := 0x00) rfl rfl))⟩
  · have hwrite := step_operandWrite (w := (false, v)) h
    exact ⟨hwrite, (run_succ_next 1 hwrite).trans ((run_one _).trans (step_read (off := 0x08) rfl rfl))⟩

/-- Settles O10, offset by offset. -/
theorem readOnlyAndReservedWritesAreIgnored : Obligations.ReadOnlyAndReservedWritesAreIgnored := by
  intro s off v rest hoff h
  simp only [List.mem_cons, List.not_mem_nil, or_false] at hoff
  rcases hoff with rfl | rfl | rfl | rfl | rfl <;> exact step_write rfl h

/-- The RSV field is the word without its low byte (R70). -/
theorem wordRsvNonzero_eq (v : Word) : wordRsvNonzero v = decide (v.toNat / 256 ≠ 0) := by
  have hlt : v.toNat / 256 < 2 ^ 56 := by have := v.isLt; omega
  have hnat : (v.extractLsb' 8 56).toNat = v.toNat / 256 := by
    rw [BitVec.extractLsb'_toNat, Nat.shiftRight_eq_div_pow]
    exact Nat.mod_eq_of_lt hlt
  rw [wordRsvNonzero, ← hnat, Bool.eq_iff_iff, bne_iff_ne, decide_eq_true_iff, ne_eq, ne_eq, BitVec.toNat_eq]
  rfl

/-- Settles O13: the two cases of a CMD write. -/
theorem commandWriteIsAcceptedOrDropped : Obligations.CommandWriteIsAcceptedOrDropped := by
  intro s v rest h
  have hstep : step s = .next { requestCommand { s with inputs := rest } v with reply := .written } := step_write rfl h
  constructor <;> intro hb
  · rw [hstep, requestCommand_busy (s := { s with inputs := rest }) hb]
    rfl
  · rw [hstep, requestCommand_idle (s := { s with inputs := rest }) hb, ← wordRsvNonzero_eq]
    rfl

/-- Settles O12: the host's address is an offset from BASE, and every register is found at its own. -/
theorem windowStandsAtBase : Obligations.WindowStandsAtBase := by
  refine ⟨fun off hoff => ?_, fun r => ⟨rfl, regAt_offset r⟩⟩
  rw [windowOffset, BitVec.add_comm, BitVec.add_sub_cancel, BitVec.toNat_ofNat]
  exact Nat.mod_eq_of_lt (by omega)

/-! The STATUS word. -/

/-- The bits of STATUS (R25). -/
theorem getLsbD_statusWord (s : State) {i : Nat} (hi : i < 64) : (statusWord s).getLsbD i
    = ((decide (0 = i) && s.busy) || (decide (1 = i) && s.tv) || (decide (2 = i) && s.ovr)
      || (!decide (i < 4) && s.err.code.getLsbD (i - 4))) := by
  have hword : statusWord s = bitAt s.busy 0 ||| bitAt s.tv 1 ||| bitAt s.ovr 2 ||| (s.err.code.setWidth 64 <<< 4) := by
    rw [statusWord, bitAt, BitVec.shiftLeft_zero]
    rfl
  rw [hword, BitVec.getLsbD_or, BitVec.getLsbD_or, BitVec.getLsbD_or, getLsbD_bitAt, getLsbD_bitAt, getLsbD_bitAt,
    BitVec.getLsbD_shiftLeft, BitVec.getLsbD_setWidth]
  simp [hi, show i - 4 < 64 by omega]

/-- From bit 4 on STATUS is the error code. -/
theorem getLsbD_statusWord_four_add (s : State) {i : Nat} (hi : 4 + i < 64) :
    (statusWord s).getLsbD (4 + i) = s.err.code.getLsbD i := by
  simp [getLsbD_statusWord s hi, show 0 ≠ 4 + i by omega, show 1 ≠ 4 + i by omega, show 2 ≠ 4 + i by omega]

/-- Settles O11, bit by bit. -/
theorem statusWordHasTheStatedLayout : Obligations.StatusWordHasTheStatedLayout := by
  refine ⟨fun s => ⟨?_, ?_, ?_, ?_, ?_, ?_, s.err.code_le⟩, rfl, rfl, rfl, rfl, rfl, rfl⟩
  · exact (getLsbD_statusWord s (by decide)).trans (by simp)
  · exact (getLsbD_statusWord s (by decide)).trans (by simp)
  · exact (getLsbD_statusWord s (by decide)).trans (by simp)
  · exact (getLsbD_statusWord s (by decide)).trans (by simp)
  · refine BitVec.eq_of_getLsbD_eq fun i hi => ?_
    rw [BitVec.getLsbD_extractLsb', getLsbD_statusWord_four_add s (by omega), decide_eq_true hi, Bool.true_and]
  · refine BitVec.eq_of_getLsbD_eq fun i hi => ?_
    rw [BitVec.getLsbD_extractLsb', show 8 + i = 4 + (4 + i) by omega, getLsbD_statusWord_four_add s (by omega),
      BitVec.getLsbD_of_ge _ _ (by omega), Bool.and_false]
    exact BitVec.getLsbD_zero.symm

/-! Reset. -/

/-- Settles O5: the reset state is written out. -/
theorem resetClearsEveryReadableRegister : Obligations.ResetClearsEveryReadableRegister :=
  ⟨rfl, rfl, rfl, rfl, rfl, rfl, rfl, by decide⟩

/-- Settles O51: TMEM is empty, TV = 0 and nothing is in flight. -/
theorem resetStateIsSound : Obligations.ResetStateIsSound := inv_reset []

/-! A command issued and completed. -/

theorem encode_eq_one_iff (i : Instr) : encode i = 0x0000000000000001 ↔ i = .build :=
  ⟨fun h => by_contra fun hi => encode_ne_one hi h, fun h => h ▸ rfl⟩

theorem decodeLatched_opcode (i : Instr) : decodeLatched (opcode i) false = .ok i := by cases i <;> rfl

/-- What the acceptance of a command's word latches (R31, R74). -/
theorem acceptCommand_encode (s : State) (i : Instr) : acceptCommand s (encode i) = { s with
    lop := opcode i, lrsv := false, la := s.opa, lb := s.opb, ovr := false,
    tv := if i = .build then false else s.tv, busy := true } := by
  have hlop : wordOpcode (encode i) = opcode i := by cases i <;> rfl
  have hlrsv : wordRsvNonzero (encode i) = false := by cases i <;> rfl
  rw [acceptCommand, hlop, hlrsv]
  simp only [encode_eq_one_iff]

/-- Settles O16: acceptance latches OPA and OPB, and the Engine's turn that follows completes the decoded command. -/
theorem issuedCommandRunsOnLatchedOperands : Obligations.IssuedCommandRunsOnLatchedOperands := by
  intro s i rest hb
  constructor
  · intro h
    have hwrite : step s = .next { requestCommand { s with inputs := .engine :: rest } (encode i) with reply := .written } :=
      step_write rfl h
    rw [requestCommand_idle (s := { s with inputs := .engine :: rest }) hb, acceptCommand_encode] at hwrite
    rw [run_succ_next 1 hwrite, run_one]
    exact step_engine rfl rfl (decodeLatched_opcode i)
  · have hword : BitVec.ofNat 64 ((encode i).toNat % 2 ^ 64) = encode i := by
      rw [BitVec.toNat_mod_cancel, BitVec.ofNat_toNat, BitVec.setWidth_eq]
    rw [State.withFetchWord, placeCommand, hword, acceptCommand_encode]
    exact step_engine rfl rfl (decodeLatched_opcode i)

end Sys2Proof.Machine

/-! PROOFS. TMEM (20_memory.md R51 to R57): its little-endian accesses, its size, and that every offset an engine forms has
storage. -/

namespace Sys2Proof.Machine

/-! Little-endian accesses (R52). -/

/-- One-byte writes at the offsets from `a` on, byte `i` being `f i`. -/
theorem Memory.read_foldl_write (f : Nat → Byte) (m : Memory) (a n b : Nat) :
    ((List.range n).foldl (fun m i => m.write (a + i) (f i)) m).read b
      = if a ≤ b ∧ b < a + n then some (f (b - a)) else m.read b := by
  induction n with
  | zero => exact (if_neg (by omega)).symm
  | succ n ih =>
    rw [List.range_succ, List.foldl_append, List.foldl_cons, List.foldl_nil, Memory.read_write, ih]
    by_cases hlast : b = a + n
    · rw [if_pos hlast, if_pos (by omega), show b - a = n by omega]
    · rw [if_neg hlast]
      exact if_congr (by omega) rfl rfl

/-- Settles O24: a read assembles the bytes by `memRead_ok`, and a write is one byte after another. -/
theorem tmemAccessesAreLittleEndian : Obligations.TmemAccessesAreLittleEndian :=
  ⟨fun _ _ _ _ h => memRead_ok h, fun m a n _ b => Memory.read_foldl_write _ m a n b⟩

/-! The holes and the size of TMEM (R54, R55). -/

theorem tmemHole_iff (a : Nat) : tmemHole a = true ↔
    (0x00410 ≤ a ∧ a ≤ 0x004FF) ∨ (0x00800 ≤ a ∧ a ≤ 0x0FFFF) ∨ 0x50000 ≤ a := by
  simp only [tmemHole, Bool.or_eq_true, Bool.and_eq_true, decide_eq_true_eq]
  omega

/-- The image lists one byte for each byte of each table (R55). -/
theorem tableImage_length : tableImage.length = (Table.all.map Table.size).sum := by
  rw [tableImage, List.length_flatMap]
  refine congrArg List.sum (List.map_congr_left fun t _ => ?_)
  rw [Table.cells, List.length_map, List.length_range']

/-- An offset has storage exactly when BUILD gives it a byte (R54, R55). -/
theorem tmemHole_eq_false_iff_tableImage (a : Nat) : tmemHole a = false ↔ (tableImage.read a).isSome = true := by
  constructor
  · intro h
    obtain ⟨t, o, ho, rfl⟩ := Table.of_backed h
    rw [tableImage_read t ho, Option.isSome_some]
  · intro h
    obtain ⟨v, hv⟩ := Option.isSome_iff_exists.mp h
    exact tableImage_backed (Memory.mem_of_read hv)

/-- Settles O26: the sizes of the map add up, and BUILD leaves a byte at exactly the offsets with storage. -/
theorem tmemHasTheStatedSize : Obligations.TmemHasTheStatedSize :=
  ⟨tableImage_length.trans (by decide), by decide, by decide, by decide, rfl, by decide,
    tmemHole_eq_false_iff_tableImage⟩

/-! No engine reads a hole (R54): whatever TMEM holds, every index an engine forms is inside its table. -/

/-- The computation does not end in the read of a hole. -/
def AvoidsHoles {α : Type} (r : Except Fault α) : Prop := ∀ a, r ≠ .error (.tmemHole a)

theorem AvoidsHoles.ok {α : Type} (v : α) : AvoidsHoles (.ok v : Except Fault α) := fun _ h => nomatch h

theorem AvoidsHoles.bind {α β : Type} {r : Except Fault α} {f : α → Except Fault β} (hr : AvoidsHoles r)
    (hf : ∀ v, AvoidsHoles (f v)) : AvoidsHoles (r >>= f) := by
  cases r with
  | ok v => exact hf v
  | error e => exact fun a h => hr a (congrArg Except.error (Except.error.inj h))

theorem AvoidsHoles.map {α β : Type} {r : Except Fault α} (f : α → β) (hr : AvoidsHoles r) : AvoidsHoles (r.map f) := by
  cases r with
  | ok v => exact .ok (f v)
  | error e => exact fun a h => hr a (congrArg Except.error (Except.error.inj h))

/-- A loop avoids holes if each of its turns does. -/
theorem AvoidsHoles.foldlM {α β : Type} {f : β → α → Except Fault β} (l : List α) (b : β)
    (h : ∀ b, ∀ x ∈ l, AvoidsHoles (f b x)) : AvoidsHoles (l.foldlM f b) := by
  induction l generalizing b with
  | nil => exact .ok b
  | cons x l ih =>
    rw [List.foldlM_cons]
    exact (h b x List.mem_cons_self).bind fun c => ih c fun b y hy => h b y (List.mem_cons_of_mem _ hy)

theorem avoidsHoles_readByte (m : Memory) {a : Nat} (ha : tmemHole a = false) : AvoidsHoles (readByte m a) := by
  intro b
  rcases readByte_cases m a with ⟨h, -⟩ | ⟨-, v, -, e⟩ | ⟨-, -, e⟩
  · exact absurd (ha.symm.trans h) Bool.false_ne_true
  · rw [e]; exact AvoidsHoles.ok v b
  · rw [e]; exact fun h => nomatch h

/-- A read inside a table. -/
theorem avoidsHoles_readTable (m : Memory) (t : Table) {o : Nat} (ho : o < t.size) :
    AvoidsHoles (readByte m (t.base + o)) :=
  avoidsHoles_readByte m (t.backed ho)

/-- A multi-byte read inside a table. -/
theorem avoidsHoles_memReadNat (m : Memory) (t : Table) (n o : Nat) (h : o + n ≤ t.size) :
    AvoidsHoles (memReadNat m (t.base + o) n) := by
  induction n generalizing o with
  | zero => exact .ok 0
  | succ n ih =>
    exact (avoidsHoles_readTable m t (by omega)).bind fun _ => (ih (o + 1) (by omega)).bind fun _ => .ok _

theorem avoidsHoles_chunkPopcount (m : Memory) (w : ChunkWidth) (p : PopSource) {b : Nat} (hb : b < w.values) :
    AvoidsHoles (chunkPopcount w p m b) := by
  cases p with
  | circuit => exact .ok _
  | table => exact (avoidsHoles_readTable m (popTable w) (popTable_size w ▸ hb)).map _

theorem avoidsHoles_tablePdep (w : ChunkWidth) (o : Orientation) (p : PopSource) (m : Memory) (a mask : Word) :
    AvoidsHoles (tablePdep w o p m a mask) := by
  refine (AvoidsHoles.foldlM _ _ fun st i _ => ?_).bind fun _ => .ok _
  have hb : chunkOf w mask i < w.values := chunkOf_lt w mask i
  obtain ⟨k, hk, haddr, -⟩ := pdepTable_entry w o (Nat.mod_lt st.2.toNat w.values_pos) hb
  rw [pdepChunk, haddr]
  exact (avoidsHoles_readTable m _ hk).bind fun _ => (avoidsHoles_chunkPopcount m w p hb).bind fun _ => .ok _

theorem avoidsHoles_tablePext (w : ChunkWidth) (o : Orientation) (p : PopSource) (m : Memory) (a mask : Word) :
    AvoidsHoles (tablePext w o p m a mask) := by
  refine (AvoidsHoles.foldlM _ _ fun st i _ => ?_).bind fun _ => .ok _
  have hb : chunkOf w mask i < w.values := chunkOf_lt w mask i
  obtain ⟨k, hk, haddr, -⟩ := pextTable_entry w o (chunkOf_lt w a i) hb
  rw [pextChunk, haddr]
  exact (avoidsHoles_readTable m _ hk).bind fun _ => (avoidsHoles_chunkPopcount m w p hb).bind fun _ => .ok _

/-- A row of a lane table (R191). -/
theorem avoidsHoles_laneVector (m : Memory) {t : Table} (ht : t.size = 256) {x : Nat} (hx : x < 16) :
    AvoidsHoles (laneVector m t x) :=
  (avoidsHoles_memReadNat m t 16 (16 * x) (by omega)).map _

theorem avoidsHoles_readP16 (m : Memory) {b : Nat} (hb : b < 16) : AvoidsHoles (readByte m (Table.p16.base + b)) :=
  avoidsHoles_readTable m .p16 hb

theorem avoidsHoles_pdepVs (m : Memory) (a mask : Word) : AvoidsHoles (pdepVs m a mask) := by
  refine (AvoidsHoles.foldlM _ _ fun st i hi => ?_).bind fun _ => .ok _
  have hi : i < 16 := Nat.lt_trans (List.mem_range.mp hi) (by decide)
  have row : ∀ s : Word, AvoidsHoles (laneVector m .lp (s.toNat % 16)) := fun s =>
    avoidsHoles_laneVector m rfl (Nat.mod_lt _ (by decide))
  exact (row _).bind fun _ => (avoidsHoles_readP16 m (loNibbles_lt mask hi)).bind fun _ =>
    (row _).bind fun _ => (avoidsHoles_readP16 m (hiNibbles_lt mask hi)).bind fun _ => .ok _

theorem avoidsHoles_pextVs (m : Memory) (a mask : Word) : AvoidsHoles (pextVs m a mask) := by
  refine (AvoidsHoles.foldlM _ _ fun st i hi => ?_).bind fun _ => .ok _
  have hi : i < 16 := Nat.lt_trans (List.mem_range.mp hi) (by decide)
  have row : ∀ p, AvoidsHoles (laneVector m .lx (nibbleAt a p).toNat) := fun p =>
    avoidsHoles_laneVector m rfl (nibbleAt_lt a p)
  exact (row _).bind fun _ => (row _).bind fun _ => (avoidsHoles_readP16 m (loNibbles_lt mask hi)).bind fun _ =>
    (avoidsHoles_readP16 m (hiNibbles_lt mask hi)).bind fun _ => .ok _

/-- The fault of a table-reading command is that of its engine. -/
theorem whenBuilt_finish_ne_tmemHole (s : State) {r : Except Fault Word} (hr : AvoidsHoles r) (a : Nat) :
    whenBuilt s (finish s r) ≠ .fault (.tmemHole a) := by
  cases htv : s.tv with
  | false => rw [whenBuilt_notBuilt htv]; exact fun h => nomatch h
  | true => rw [whenBuilt_built htv]; exact mt finish_fault_iff.mp (hr a)

/-- R132: TBLRD of a hole. -/
theorem exec_tblrd_hole {s : State} (htv : s.tv = true) (hh : tmemHole (operandOffset s) = true) :
    exec .tblrd s = .next (completeError s .badIndex) := by
  rw [exec, execTblrd, whenBuilt_built htv, if_pos hh]

/-- TBLRD of an offset with storage. -/
theorem exec_tblrd_backed {s : State} (hh : tmemHole (operandOffset s) = false) :
    exec .tblrd s = whenBuilt s (finish s ((readByte s.tmem (operandOffset s)).map (·.setWidth 64))) := by
  rw [exec, execTblrd, hh, if_neg Bool.false_ne_true]

/-- The commands that read TMEM are TBLRD and the table engines (R244). -/
theorem readsTables_cases {i : Instr} (h : readsTables i = true) :
    i = .tblrd ∨ i ∈ tablePdepInstrs ∨ i ∈ tablePextInstrs ∨ i = .pdepVs ∨ i = .pextVs := by
  revert h
  cases i <;> decide

/-- Only a table-reading command can fault. -/
theorem readsTables_of_exec_fault {i : Instr} {s : State} {f : Fault} (h : exec i s = .fault f) :
    readsTables i = true ∧ s.tv = true := by
  cases (h ▸ exec_completed i s : Completed i s (.fault f)) with
  | fault hi htv => exact ⟨hi, htv⟩

theorem exec_ne_tmemHole (i : Instr) (s : State) (a : Nat) : exec i s ≠ .fault (.tmemHole a) := by
  intro h
  refine absurd h ?_
  obtain ⟨hi, htv⟩ := readsTables_of_exec_fault h
  rcases readsTables_cases hi with rfl | hi | hi | rfl | rfl
  · cases hh : tmemHole (operandOffset s) with
    | true => rw [exec_tblrd_hole htv hh]; exact fun h => nomatch h
    | false =>
      rw [exec_tblrd_backed hh]
      exact whenBuilt_finish_ne_tmemHole s ((avoidsHoles_readByte _ hh).map _) a
  · obtain ⟨w, o, p, e⟩ := exec_tablePdep hi
    rw [e s]
    exact whenBuilt_finish_ne_tmemHole s (avoidsHoles_tablePdep w o p _ _ _) a
  · obtain ⟨w, o, p, e⟩ := exec_tablePext hi
    rw [e s]
    exact whenBuilt_finish_ne_tmemHole s (avoidsHoles_tablePext w o p _ _ _) a
  · exact whenBuilt_finish_ne_tmemHole s (avoidsHoles_pdepVs _ _ _) a
  · exact whenBuilt_finish_ne_tmemHole s (avoidsHoles_pextVs _ _ _) a

/-- Settles O25: TBLRD looks at the offset first, and every other index is inside its table. -/
theorem noEngineReadsAHole : Obligations.NoEngineReadsAHole :=
  ⟨tmemHole_iff, fun _ htv hh => exec_tblrd_hole htv hh, exec_ne_tmemHole⟩

end Sys2Proof.Machine

/-! PROOFS. What every step keeps (20_memory.md R54, 41_table_builder.md R129, R131), and what can stop the machine (R56,
R245). -/

namespace Sys2Proof.Machine

/-! The command a latched word stands for (R70, R76). -/

/-- Only a command's own opcode with RSV = 0 decodes to it. -/
theorem latches_of_decodeLatched {lop : BitVec 8} {lrsv : Bool} {i : Instr} (h : decodeLatched lop lrsv = .ok i) :
    lrsv = false ∧ lop = opcode i := by
  have rows : ∀ r ∈ opcodeRows, r.1 = opcode r.2 := by decide
  cases lrsv with
  | true => cases h
  | false =>
    refine ⟨rfl, ?_⟩
    cases hl : opcodeRows.lookup lop with
    | none => simp [decodeLatched, hl] at h
    | some j =>
      obtain rfl : j = i := by simpa [decodeLatched, hl] using h
      obtain ⟨front, back, hrows, -⟩ := List.lookup_eq_some_iff.mp hl
      exact rows (lop, j) (hrows ▸ List.mem_append_right front List.mem_cons_self)

/-- A command word with RSV = 0 is its opcode. -/
theorem eq_opcode_of_rsv_zero {v : Word} (h : wordRsvNonzero v = false) : v = (wordOpcode v).setWidth 64 := by
  rw [wordRsvNonzero_eq, decide_eq_false_iff_not, not_not] at h
  refine BitVec.eq_of_toNat_eq ?_
  rw [wordOpcode, BitVec.toNat_setWidth, BitVec.toNat_setWidth]
  omega

/-- Accepting the word of BUILD clears TV (R31). -/
theorem acceptCommand_build_tv {s : State} {v : Word} (hrsv : wordRsvNonzero v = false)
    (hop : wordOpcode v = opcode .build) : (acceptCommand s v).tv = false := by
  have hv : v = encode .build := (eq_opcode_of_rsv_zero hrsv).trans (hop ▸ rfl)
  exact if_pos hv

/-! The invariant. -/

theorem busy_of_completesNext {s : State} (h : completesNext s = true) : s.busy = true :=
  (Bool.and_eq_true_iff.mp h).1

/-- Settles O52, event by event. TV = 1 survives an acceptance only with the tables in place, and a BUILD whose self-check
fired leaves TV at the 0 its acceptance gave it. -/
theorem everyStepKeepsTheInvariant : Obligations.EveryStepKeepsTheInvariant := by
  intro s t hinv h
  obtain ⟨hwf, hbacked, htables, hbuilding⟩ := hinv
  cases event_of_step h with
  | none | writeOpa | writeOpb | drop => exact ⟨hwf, hbacked, htables, hbuilding⟩
  | accept v =>
    exact ⟨hwf, hbacked, fun htv => htables (tv_of_acceptCommand_tv htv),
      fun _ hrsv hop => acceptCommand_build_tv hrsv hop⟩
  | reset => exact inv_reset _
  | complete => exact ⟨hwf, hbacked, htables, fun hb => nomatch hb⟩
  | build => exact ⟨tableImage_wf, onlyBacked_tableImage, fun _ => tableImage_tablesHold, fun hb => nomatch hb⟩
  | buildInconsistent hc hd =>
    obtain ⟨hrsv, hop⟩ := latches_of_decodeLatched hd
    have htv : s.tv = false := hbuilding (busy_of_completesNext hc) hrsv hop
    exact ⟨.nil, fun _ hmem => (nomatch hmem), fun h => absurd (htv.symm.trans h) Bool.false_ne_true,
      fun hb => nomatch hb⟩

/-! Accepted host accesses (R56). -/

/-- The transactions of R80 are the accesses the window accepts. -/
theorem HostAccess.wellFormed_read (off width : Nat) :
    (HostAccess.read off width).wellFormed = accessAccepted off width := by
  rw [Bool.eq_iff_iff]
  simp only [wellFormed, widthOk, alignedOk, rangeOk, accessAccepted, Bool.and_eq_true, beq_iff_eq, decide_eq_true_eq]
  omega

theorem HostAccess.wellFormed_write (off width : Nat) (v : Word) :
    (HostAccess.write off width v).wellFormed = accessAccepted off width := wellFormed_read off width

theorem accessAccepted_iff (off width : Nat) :
    accessAccepted off width = true ↔ width = 8 ∧ off % 8 = 0 ∧ off < 0x40 := by
  simp only [accessAccepted, Bool.and_eq_true, beq_iff_eq, decide_eq_true_eq]
  omega

/-- The window answers a transaction of R80. -/
theorem hostStep_wellFormed (s : State) {h : HostAccess} (hh : h.wellFormed = true) : ∃ t, hostStep s h = .next t := by
  cases h with
  | read off width => exact ⟨_, if_pos (HostAccess.wellFormed_read off width ▸ hh)⟩
  | write off width v => exact ⟨_, if_pos (HostAccess.wellFormed_write off width v ▸ hh)⟩

/-- The window rejects everything else. -/
theorem hostStep_not_wellFormed (s : State) {h : HostAccess} (hh : h.wellFormed = false) :
    hostStep s h = .fault (.hostAccessRejected Config.busError) := by
  rw [← Bool.not_eq_true] at hh
  cases h with
  | read off width => exact if_neg (HostAccess.wellFormed_read off width ▸ hh)
  | write off width v => exact if_neg (HostAccess.wellFormed_write off width v ▸ hh)

/-- Settles O7: the conditions of R56 are those of a well-formed transaction. -/
theorem onlyAlignedEightByteAccessesAreAccepted : Obligations.OnlyAlignedEightByteAccessesAreAccepted := by
  intro s off width v rest hs
  obtain ⟨h, hs, hwf⟩ : ∃ h : HostAccess, s.inputs = .host h :: rest ∧ h.wellFormed = accessAccepted off width := by
    rcases hs with hs | hs
    · exact ⟨_, hs, HostAccess.wellFormed_read off width⟩
    · exact ⟨_, hs, HostAccess.wellFormed_write off width v⟩
  rw [step_cons hs, move, ← accessAccepted_iff, ← hwf]
  exact ⟨hostStep_wellFormed _, fun hn => hostStep_not_wellFormed _ (Bool.eq_false_iff.mpr hn)⟩

/-! What can stop the machine. -/

/-- An engine whose every read finds its entry does not stop (R271). -/
theorem exec_ne_fault {s : State} (htables : s.tv = true → TablesHold s.tmem) (i : Instr) (f : Fault) :
    exec i s ≠ .fault f := by
  intro h
  refine absurd h ?_
  obtain ⟨hi, htv⟩ := readsTables_of_exec_fault h
  have hm := htables htv
  rcases readsTables_cases hi with rfl | hi | hi | rfl | rfl
  · cases hh : tmemHole (operandOffset s) with
    | true => rw [exec_tblrd_hole htv hh]; exact fun h => nomatch h
    | false =>
      obtain ⟨t, o, ho, haddr⟩ := Table.of_backed hh
      rw [exec_tblrd_backed hh, whenBuilt_built htv, haddr, hm.readByte_entry t ho]
      exact fun h => nomatch h
  · rw [(tablePdepCommandsDeposit i hi s).1 htv hm]; exact fun h => nomatch h
  · rw [(tablePextCommandsExtract i hi s).1 htv hm]; exact fun h => nomatch h
  · rw [exec_pdepVs htv hm]; exact fun h => nomatch h
  · rw [exec_pextVs htv hm]; exact fun h => nomatch h

/-- Every command completes where TV is truthful about TMEM. -/
theorem exec_next {s : State} (htables : s.tv = true → TablesHold s.tmem) (i : Instr) : ∃ t, exec i s = .next t := by
  cases h : exec i s with
  | next t => exact ⟨t, rfl⟩
  | fault f => exact absurd h (exec_ne_fault htables i f)
  | refused q => exact absurd h (exec_ne_refused i s q)

theorem engineTurn_next {s : State} (htables : s.tv = true → TablesHold s.tmem) : ∃ t, engineTurn s = .next t := by
  rcases engineTurn_cases s with ⟨-, e⟩ | ⟨-, i, -, e⟩ | ⟨-, r, -, e⟩ <;> rw [e]
  · exact ⟨s, rfl⟩
  · exact exec_next htables i
  · exact ⟨_, rfl⟩

/-- Settles O54: the Engine's turn and the reset input go on, and so does every access the window accepts. -/
theorem onlyRejectedAccessesStopTheMachine : Obligations.OnlyRejectedAccessesStopTheMachine := by
  intro s hinv
  rcases step_cases s with ⟨-, e⟩ | ⟨rest, -, e⟩ | ⟨rest, -, e⟩ | ⟨h, rest, hs, e⟩ <;> rw [e]
  · exact .inl (engineTurn_next hinv.tables)
  · exact .inl (engineTurn_next (s := { s with inputs := rest }) hinv.tables)
  · exact .inl ⟨_, rfl⟩
  · cases hwf : h.wellFormed with
    | true => exact .inl (hostStep_wellFormed _ hwf)
    | false => exact .inr ⟨hostStep_not_wellFormed _ hwf, h, rest, hs, hwf⟩

/-! Program P5 (R285, R286). -/

/-- `ISSUE` to an idle PTE is accepted (R31). -/
theorem step_hostIssue_idle {s : State} {i : Instr} {rest : List Input} (hb : s.busy = false)
    (h : s.inputs = .host (hostIssue i) :: rest) :
    step s = .next { acceptCommand { s with inputs := rest } (encode i) with reply := .written } := by
  rw [step_hostSt h, writeReg, requestCommand_idle (s := { s with inputs := rest }) hb]

/-- `ISSUE` while a command is in flight is dropped (R31). -/
theorem step_hostIssue_busy {s : State} {i : Instr} {rest : List Input} (hb : s.busy = true)
    (h : s.inputs = .host (hostIssue i) :: rest) :
    step s = .next { dropCommand { s with inputs := rest } with reply := .written } := by
  rw [step_hostSt h, writeReg, requestCommand_busy (s := { s with inputs := rest }) hb]

/-- Settles O58: with the completion between the two writes both commands run, each on the same operands; without it the
second write is dropped and the first command completes. -/
theorem backToBackCommandsHaveBothOutcomes : Obligations.BackToBackCommandsHaveBothOutcomes := by
  intro s rest hb
  constructor <;> intro h
  · have first := (issuedCommandRunsOnLatchedOperands s .pdepRef _ hb).1 h
    have second := fun (u : State) (hu : u.busy = false) =>
      (issuedCommandRunsOnLatchedOperands u .pextRef (.host (hostLd .result) :: rest) hu).1
    rw [run_add_next (j := 2) 3 first, run_add_next (j := 2) 1 (second _ rfl rfl), run_one, step_hostLd rfl]
    exact ⟨_, rfl, rfl, rfl, rfl, rfl⟩
  · have accepted := step_hostIssue_idle hb h
    have completed := fun u : State => step_engine (s := u) (i := .pdepRef) (rest := .host (hostLd .result) :: rest)
    rw [run_succ_next 3 accepted, run_succ_next 2 (step_hostIssue_busy rfl rfl),
      run_succ_next 1 (completed _ rfl rfl rfl), run_one, step_hostLd rfl]
    exact ⟨_, rfl, rfl, rfl, rfl, rfl⟩

end Sys2Proof.Machine

/-! PROOFS. Command words (30_encoding.md R70 to R77): which words and bytes decode to a command, and what the Engine makes
of the latches in either case (60_exceptions.md R243). -/

namespace Sys2Proof.Machine

/-! The bytes of a command word (R57). -/

@[simp] theorem length_bytesOfNat (k n : Nat) : (bytesOfNat k n).length = k := by
  induction k generalizing n with
  | zero => rfl
  | succ k ih => rw [bytesOfNat, List.length_cons, ih]

/-- Reassembling the low `k` bytes of a number gives the number modulo `256 ^ k`. -/
theorem wordOfBytes_bytesOfNat (k n : Nat) : wordOfBytes (bytesOfNat k n) = n % 256 ^ k := by
  induction k generalizing n with
  | zero => rw [Nat.pow_zero, Nat.mod_one]; rfl
  | succ k ih =>
    rw [bytesOfNat, wordOfBytes, ih, BitVec.toNat_ofNat, Nat.pow_succ' (m := 256)]
    exact Nat.mod_mul.symm

/-- The 8 bytes of a word decode as the word does. -/
theorem decodeBytes_bytesOfNat (w : Word) : decodeBytes (bytesOfNat 8 w.toNat) = decodeWord w := by
  have hword : BitVec.ofNat 64 (w.toNat % 256 ^ 8) = w := by
    rw [show 256 ^ 8 = 2 ^ 64 from rfl, BitVec.toNat_mod_cancel, BitVec.ofNat_toNat, BitVec.setWidth_eq]
  rw [decodeBytes, if_pos (length_bytesOfNat 8 _), wordOfBytes_bytesOfNat, hword]

theorem decodeTableWord_of_decodeWord {w : Word} {i : Instr} (h : decodeWord w = .ok i) :
    decodeTableWord 64 w.toNat = some i := by
  simp only [decodeTableWord, BitVec.toNat_mod_cancel, decodeBytes_bytesOfNat, h, w.isLt, if_true]

/-- Settles O1: the bytes and the table word decode as the word does. -/
theorem encodeThenDecodeGivesTheCommand : Obligations.EncodeThenDecodeGivesTheCommand := fun i =>
  ⟨decodeWord_encode i, (decodeBytes_bytesOfNat (encode i)).trans (decodeWord_encode i),
    decodeTableWord_of_decodeWord (decodeWord_encode i)⟩

/-! The words that decode (R75). -/

/-- RSV = 0 and the OPCODE of the command leave only the command's own word. -/
theorem decodeWord_eq_ok_iff (w : Word) (i : Instr) : decodeWord w = .ok i ↔ w = encode i := by
  constructor
  · intro h
    obtain ⟨hrsv, hop⟩ := latches_of_decodeLatched h
    rw [encode, ← hop]
    exact eq_opcode_of_rsv_zero hrsv
  · rintro rfl
    exact decodeWord_encode i

theorem decodeWord_error_of_ne_encode {w : Word} (h : ∀ i, w ≠ encode i) : ∃ r, decodeWord w = .error r := by
  cases hd : decodeWord w with
  | ok i => exact absurd ((decodeWord_eq_ok_iff w i).mp hd) (h i)
  | error r => exact ⟨r, rfl⟩

/-- Settles O2: what a word can decode to is settled by its RSV and OPCODE fields, and these make up the word. -/
theorem onlyCommandWordsDecode : Obligations.OnlyCommandWordsDecode := fun w =>
  ⟨decodeWord_eq_ok_iff w, decodeWord_error_of_ne_encode⟩

/-- Settles O3: each of the legal words is a command's own, and the last one has a nonzero RSV field. -/
theorem sampleCommandWordsDecode : Obligations.SampleCommandWordsDecode :=
  ⟨decodeWord_encode .build, decodeWord_encode .pdepT256Inv, decodeWord_encode .pextT16Pt, decodeWord_encode .pextVs,
    decodeWord_encode .pextCf, decodeWord_encode .popcntRef, decodeWord_encode .sel1Pdep, rfl⟩

/-- Settles O4: the rows of class 0x1, by WID, INV and PSRC. -/
theorem tableClassBitsSelectTheDatapath : Obligations.TableClassBitsSelectTheDatapath
  | false, false, false => ⟨⟨.pdepT16, rfl, fun _ => rfl⟩, ⟨.pextT16, rfl, fun _ => rfl⟩⟩
  | false, false, true => ⟨⟨.pdepT16Pt, rfl, fun _ => rfl⟩, ⟨.pextT16Pt, rfl, fun _ => rfl⟩⟩
  | false, true, false => ⟨⟨.pdepT16Inv, rfl, fun _ => rfl⟩, ⟨.pextT16Inv, rfl, fun _ => rfl⟩⟩
  | false, true, true => ⟨⟨.pdepT16InvPt, rfl, fun _ => rfl⟩, ⟨.pextT16InvPt, rfl, fun _ => rfl⟩⟩
  | true, false, false => ⟨⟨.pdepT256, rfl, fun _ => rfl⟩, ⟨.pextT256, rfl, fun _ => rfl⟩⟩
  | true, false, true => ⟨⟨.pdepT256Pt, rfl, fun _ => rfl⟩, ⟨.pextT256Pt, rfl, fun _ => rfl⟩⟩
  | true, true, false => ⟨⟨.pdepT256Inv, rfl, fun _ => rfl⟩, ⟨.pextT256Inv, rfl, fun _ => rfl⟩⟩
  | true, true, true => ⟨⟨.pdepT256InvPt, rfl, fun _ => rfl⟩, ⟨.pextT256InvPt, rfl, fun _ => rfl⟩⟩

/-! The Engine's turn on the latches (R243). -/

theorem completion_decoded {s : State} {i : Instr} (h : decodeLatched s.lop s.lrsv = .ok i) :
    completion s = exec i s := by
  rw [completion, h]

theorem completion_rejected {s : State} {r : Reject} (h : decodeLatched s.lop s.lrsv = .error r) :
    completion s = .next (completeIllegal s) := by
  rw [completion, h]

/-- Settles O14: the turn that comes when no move is left, and the one that is the next move. -/
theorem engineTurnRunsTheDecodedCommand : Obligations.EngineTurnRunsTheDecodedCommand := by
  intro s i hb hd
  refine ⟨fun hs => ?_, fun rest hs => step_engine hs hb hd⟩
  rw [step_nil hs, engineTurn_busy hb, completion_decoded hd]

/-- A rejected word in flight completes as an illegal one (R75). -/
theorem step_engine_rejected {s : State} {r : Reject} {rest : List Input} (h : s.inputs = .engine :: rest)
    (hb : s.busy = true) (hd : decodeLatched s.lop s.lrsv = .error r) :
    step s = .next (completeIllegal { s with inputs := rest }) := by
  rw [step_cons h, move, engineTurn_busy (s := { s with inputs := rest }) hb,
    completion_rejected (s := { s with inputs := rest }) hd]

/-! Illegal words (R75). -/

/-- The acceptance of a word other than BUILD's leaves TV (R31). -/
theorem acceptCommand_of_ne_build (s : State) {v : Word} (hv : v ≠ encode .build) : acceptCommand s v = { s with
    lop := wordOpcode v, lrsv := wordRsvNonzero v, la := s.opa, lb := s.opb, ovr := false, busy := true } := by
  have htv : (if v = 0x0000000000000001 then false else s.tv) = s.tv := if_neg hv
  rw [acceptCommand, htv]

theorem run_illegalWord {s : State} {v : Word} {rest : List Input} (hb : s.busy = false) (hv : ∀ i, v ≠ encode i)
    (hs : s.inputs = .host (.write 0x10 8 v) :: .engine :: rest) :
    run 2 s = .next { s with
      lop := wordOpcode v, lrsv := wordRsvNonzero v, la := s.opa, lb := s.opb, ovr := false,
      err := .illegalOp, busy := false, inputs := rest, reply := .written } := by
  have accepted : step s = .next { requestCommand { s with inputs := .engine :: rest } v with reply := .written } :=
    step_write rfl hs
  rw [requestCommand_idle (s := { s with inputs := .engine :: rest }) hb, acceptCommand_of_ne_build _ (hv .build)]
    at accepted
  obtain ⟨r, hr⟩ := decodeWord_error_of_ne_encode hv
  rw [run_succ_next 1 accepted, run_one]
  exact step_engine_rejected rfl rfl hr

/-- The OPCODE values R74 assigns. -/
def assignedOpcodes : List Nat := opcodeRows.map fun row => row.1.toNat

theorem decodeLatched_toOption (op : BitVec 8) : (decodeLatched op false).toOption = opcodeRows.lookup op := by
  rw [decodeLatched, if_neg Bool.false_ne_true]
  cases opcodeRows.lookup op <;> rfl

theorem decodeLatched_isNone_iff {n : Nat} (hn : n < 256) :
    (decodeLatched (BitVec.ofNat 8 n) false).toOption.isNone = true ↔ n ∉ assignedOpcodes := by
  have hnat (op : BitVec 8) : op = BitVec.ofNat 8 n ↔ op.toNat = n := by
    rw [BitVec.toNat_eq, BitVec.toNat_ofNat, Nat.mod_eq_of_lt hn]
  rw [decodeLatched_toOption, Option.isNone_iff_eq_none, List.lookup_eq_none_iff, assignedOpcodes, List.mem_map,
    not_exists]
  simp only [bne_iff_ne, ne_eq, not_and, eq_comm (a := BitVec.ofNat 8 n), hnat]

/-- R74 assigns 29 of the 256 OPCODE values, each once. -/
theorem length_unassignedOpcodes :
    ((List.range 256).filter fun n => (decodeLatched (BitVec.ofNat 8 n) false).toOption.isNone).length = 227 := by
  have hset : ((List.range 256).filter fun n => (decodeLatched (BitVec.ofNat 8 n) false).toOption.isNone).toFinset
      = Finset.range 256 \ assignedOpcodes.toFinset := by
    ext n
    rw [List.mem_toFinset, List.mem_filter, List.mem_range, Finset.mem_sdiff, Finset.mem_range, List.mem_toFinset]
    exact and_congr_right decodeLatched_isNone_iff
  have hsub : assignedOpcodes.toFinset ⊆ Finset.range 256 := fun n hn =>
    Finset.mem_range.mpr ((show ∀ n ∈ assignedOpcodes, n < 256 by decide) n (List.mem_toFinset.mp hn))
  have hcard : assignedOpcodes.toFinset.card = 29 := List.toFinset_card_of_nodup (by decide)
  rw [← List.toFinset_card_of_nodup (List.nodup_range.filter _), hset, Finset.card_sdiff_of_subset hsub, hcard,
    Finset.card_range]

/-- Settles O17: the run of an illegal word, and the count of the OPCODE values R74 leaves out. -/
theorem illegalWordCompletesWithIllegalOp : Obligations.IllegalWordCompletesWithIllegalOp :=
  ⟨fun _ _ _ hb hv hs => ⟨_, _, run_illegalWord hb hv hs⟩, length_unassignedOpcodes⟩

end Sys2Proof.Machine

/-! PROOFS. The reference functions of 40_reference.md. A count below a position is Mathlib's `Nat.count`, so a set
bit has its rank to itself and every rank below the count is taken. -/

namespace Sys2Proof.Machine

/-! Counts and ranks (R100). -/

/-- The sum of R100 counts the positions whose bit is set. -/
theorem foldl_add_toNat_eq_count (f : Nat → Bool) (n : Nat) :
    (List.range n).foldl (fun c i => c + (f i).toNat) 0 = Nat.count (fun i => f i = true) n := by
  induction n with
  | zero => rfl
  | succ n ih =>
    rw [List.range_succ, List.foldl_append, ih, Nat.count_succ, List.foldl_cons, List.foldl_nil]
    cases f n <;> rfl

theorem popcount_eq_count {w : Nat} (v : BitVec w) : popcount v = Nat.count (fun i => v.getLsbD i = true) w :=
  foldl_add_toNat_eq_count v.getLsbD w

theorem popcount_setWidth_eq_count (v : Word) (n : Nat) :
    popcount (v.setWidth n) = Nat.count (fun i => v.getLsbD i = true) n := by
  have hbit : ∀ i < n, (v.setWidth n).getLsbD i = v.getLsbD i := fun i hi => by
    rw [BitVec.getLsbD_setWidth, decide_eq_true hi, Bool.true_and]
  rw [popcount_eq_count, Nat.count_eq_card_filter_range, Nat.count_eq_card_filter_range]
  exact congrArg _ (Finset.filter_congr fun i hi => by rw [hbit i (Finset.mem_range.mp hi)])

/-- Two set bits of one rank are one bit. -/
theorem eq_of_popcount_setWidth_eq {v : Word} {i j : Nat} (hi : v.getLsbD i = true) (hj : v.getLsbD j = true)
    (h : popcount (v.setWidth i) = popcount (v.setWidth j)) : i = j := by
  rw [popcount_setWidth_eq_count, popcount_setWidth_eq_count] at h
  exact Nat.count_injective hi hj h

/-- The ranks of the set bits are the numbers below the count. -/
theorem exists_rank_iff (v : Word) (k : Nat) :
    (∃ i < 64, v.getLsbD i = true ∧ popcount (v.setWidth i) = k) ↔ k < popcount v := by
  rw [popcount_eq_count v]
  simp only [popcount_setWidth_eq_count]
  constructor
  · rintro ⟨i, hi, hbit, rfl⟩
    exact Nat.count_strict_mono hbit hi
  · intro hk
    have hcard : ∀ hf : (Set.ofPred fun i => v.getLsbD i = true).Finite, k < hf.toFinset.card :=
      fun hf => Nat.lt_of_lt_of_le hk (Nat.count_le_card hf 64)
    exact ⟨_, Nat.nth_lt_of_lt_count hk, Nat.nth_mem k hcard, Nat.count_nth hcard⟩

/-- Settles O35: both are `Nat.count` of the set positions. -/
theorem popcountIsTheNumberOfSetBits : Obligations.PopcountIsTheNumberOfSetBits :=
  ⟨fun _ v => (popcount_eq_count v).trans (Nat.count_eq_card_filter_range _ _), popcount_le⟩

/-! `pdep` and `pext` bit by bit (R101, R102). -/

theorem getLsbD_pdep (a m : Word) {i : Nat} (hi : i < 64) :
    (pdep a m).getLsbD i = (m.getLsbD i && a.getLsbD (popcount (m.setWidth i))) := by
  rw [pdep_eq_upTo, getLsbD_pdepUpTo a m (Nat.le_refl 64), decide_eq_true hi, Bool.true_and]

theorem getLsbD_pext (a m : Word) (j : Nat) : (pext a m).getLsbD j = true
    ↔ ∃ i < 64, m.getLsbD i = true ∧ a.getLsbD i = true ∧ popcount (m.setWidth i) = j :=
  getLsbD_pextUpTo a m (Nat.le_refl 64) j

/-- The bit at a mask position goes to its rank. -/
theorem getLsbD_pext_rank (a m : Word) {i : Nat} (hi : i < 64) (hm : m.getLsbD i = true) :
    (pext a m).getLsbD (popcount (m.setWidth i)) = a.getLsbD i := by
  rw [Bool.eq_iff_iff, getLsbD_pext]
  constructor
  · rintro ⟨p, -, hp, ha, hrank⟩
    rwa [← eq_of_popcount_setWidth_eq hp hm hrank]
  · exact fun ha => ⟨i, hi, hm, ha, rfl⟩

/-- No bit of the extract is set from the count of the mask on. -/
theorem getLsbD_pext_of_popcount_le (a : Word) {m : Word} {j : Nat} (hj : popcount m ≤ j) :
    (pext a m).getLsbD j = false := by
  rw [Bool.eq_false_iff, ne_eq, getLsbD_pext]
  rintro ⟨i, hi, hm, -, hrank⟩
  exact Nat.not_lt.mpr hj ((exists_rank_iff m j).mp ⟨i, hi, hm, hrank⟩)

theorem chunkPdep_toNat (a m : Word) : chunkPdep a.toNat m.toNat = pdep a m := by
  rw [chunkPdep, BitVec.ofNat_toNat, BitVec.ofNat_toNat, BitVec.setWidth_eq, BitVec.setWidth_eq]

/-- Settles O36: the loop's bits after its last turn; a deposit of chunks is a chunk. -/
theorem pdepScattersTheLowBits : Obligations.PdepScattersTheLowBits :=
  ⟨fun a m _ hi => getLsbD_pdep a m hi, fun _ a m _ hm => chunkPdep_toNat a m ▸ chunkPdep_lt hm a.toNat⟩

/-- Settles O37: a selected bit goes to its rank, and the ranks end at the count. -/
theorem pextGathersTheMaskedBits : Obligations.PextGathersTheMaskedBits := fun a m =>
  ⟨fun _ hi hm => getLsbD_pext_rank a m hi hm, fun _ hj => getLsbD_pext_of_popcount_le a hj⟩

/-! `select1` and `bsf` (R103, R104). -/

theorem select1_of_popcount_le {x : Word} {k : Nat} (h : popcount x ≤ k) : select1 x k = sentinel := by
  rw [select1, if_pos h]

/-- The search of R103 finds the set bit of rank `k`. -/
theorem select1_of_rank {x : Word} {k i : Nat} (hi : i < 64) (hx : x.getLsbD i = true)
    (hk : popcount (x.setWidth i) = k) : select1 x k = BitVec.ofNat 64 i := by
  have hfind : (List.range 64).find? (fun i => x.getLsbD i && popcount (x.setWidth i) == k) = some i := by
    simp only [List.find?_range_eq_some, Bool.and_eq_true, beq_iff_eq, Bool.not_eq_true', Bool.eq_false_iff, ne_eq]
    refine ⟨⟨hx, hk⟩, List.mem_range.mpr hi, fun j hj => ?_⟩
    rintro ⟨hbit, hrank⟩
    exact Nat.ne_of_lt hj (eq_of_popcount_setWidth_eq hbit hx (hrank.trans hk.symm))
  have hlt : k < popcount x := (exists_rank_iff x k).mp ⟨i, hi, hx, hk⟩
  rw [select1, if_neg (Nat.not_le.mpr hlt), hfind, positionOrSentinel]

/-- Settles O38: below the count there is a set bit of rank `k`, only one, and the search finds it. -/
theorem select1IsTheSetBitOfRankK : Obligations.Select1IsTheSetBitOfRankK := by
  intro x k _
  refine ⟨select1_of_popcount_le, fun hlt => ?_⟩
  obtain ⟨i, hi, hx, hk⟩ := (exists_rank_iff x k).mpr hlt
  exact ⟨i, hi, hx, hk, select1_of_rank hi hx hk,
    fun j _ hxj hkj => eq_of_popcount_setWidth_eq hxj hx (hkj.trans hk.symm)⟩

theorem getLsbD_zeroWord (i : Nat) : (0 : Word).getLsbD i = false := BitVec.getLsbD_zero

theorem bsf_eq_none_iff (v : Word) : bsf v = none ↔ v = 0 := by
  simp only [bsf, List.find?_range_eq_none, Bool.not_eq_true']
  constructor
  · intro h
    exact BitVec.eq_of_getLsbD_eq fun i hi => (h i hi).trans (getLsbD_zeroWord _).symm
  · rintro rfl i -
    exact getLsbD_zeroWord i

theorem bsf_eq_some_iff (v : Word) (i : Nat) :
    bsf v = some i ↔ v.getLsbD i = true ∧ i < 64 ∧ ∀ j < i, v.getLsbD j = false := by
  simp only [bsf, List.find?_range_eq_some, List.mem_range, Bool.not_eq_true']

/-- Settles O39: the search fails on the word 0 only, and what it finds is the first set bit. -/
theorem bsfIsTheLowestSetBit : Obligations.BsfIsTheLowestSetBit := by
  intro v hv
  obtain ⟨i, hi⟩ := Option.ne_none_iff_exists'.mp (mt (bsf_eq_none_iff v).mp hv)
  obtain ⟨hbit, hlt, hlow⟩ := (bsf_eq_some_iff v i).mp hi
  exact ⟨i, hlt, hi, hbit, hlow⟩

/-! The laws of R108. -/

theorem pdep_zero (a : Word) : pdep a 0 = 0 :=
  BitVec.eq_of_getLsbD_eq fun i hi => by
    rw [getLsbD_pdep a 0 hi, getLsbD_zeroWord, Bool.false_and]

theorem popcount_zero : popcount (0 : Word) = 0 := rfl

theorem pext_zero (a : Word) : pext a 0 = 0 :=
  BitVec.eq_of_getLsbD_eq fun j _ =>
    (getLsbD_pext_of_popcount_le a (popcount_zero ▸ Nat.zero_le j)).trans (getLsbD_zeroWord _).symm

theorem getLsbD_fullMask {i : Nat} (hi : i < 64) : (0xFFFFFFFFFFFFFFFF : Word).getLsbD i = true := by
  rw [show (0xFFFFFFFFFFFFFFFF : Word) = BitVec.allOnes 64 from rfl, BitVec.getLsbD_allOnes, decide_eq_true hi]

/-- Under the full mask every position is its own rank. -/
theorem popcount_setWidth_fullMask {i : Nat} (hi : i ≤ 64) :
    popcount ((0xFFFFFFFFFFFFFFFF : Word).setWidth i) = i := by
  rw [popcount_setWidth_eq_count, Nat.count_iff_forall]
  exact fun j hj => getLsbD_fullMask (Nat.lt_of_lt_of_le hj hi)

theorem pdep_fullMask (a : Word) : pdep a 0xFFFFFFFFFFFFFFFF = a :=
  BitVec.eq_of_getLsbD_eq fun i hi => by
    rw [getLsbD_pdep a _ hi, getLsbD_fullMask hi, popcount_setWidth_fullMask (Nat.le_of_lt hi), Bool.true_and]

theorem pext_fullMask (a : Word) : pext a 0xFFFFFFFFFFFFFFFF = a :=
  BitVec.eq_of_getLsbD_eq fun i hi => by
    have hrank := getLsbD_pext_rank a _ hi (getLsbD_fullMask hi)
    rwa [popcount_setWidth_fullMask (Nat.le_of_lt hi)] at hrank

/-- `LOW(c)` of R108: the word whose `c` low bits are set. -/
def lowMask (c : Nat) : Word := if c < 64 then BitVec.ofNat 64 (2 ^ c - 1) else 0xFFFFFFFFFFFFFFFF

theorem getLsbD_lowMask (c : Nat) {j : Nat} (hj : j < 64) : (lowMask c).getLsbD j = decide (j < c) := by
  rw [lowMask]
  split
  case isTrue => rw [BitVec.getLsbD_ofNat, Nat.testBit_two_pow_sub_one, decide_eq_true hj, Bool.true_and]
  case isFalse hc => rw [getLsbD_fullMask hj, decide_eq_true (show j < c by omega)]

/-- R108: extracting what was deposited gives back the low bits, one for each bit of the mask. -/
theorem pext_pdep (a mask : Word) : pext (pdep a mask) mask = a &&& lowMask (popcount mask) := by
  refine BitVec.eq_of_getLsbD_eq fun j hj => ?_
  rw [BitVec.getLsbD_and, getLsbD_lowMask _ hj]
  by_cases hlt : j < popcount mask
  · obtain ⟨i, hi, hm, rfl⟩ := (exists_rank_iff mask j).mpr hlt
    rw [getLsbD_pext_rank _ _ hi hm, getLsbD_pdep a mask hi, hm, decide_eq_true hlt, Bool.and_true, Bool.true_and]
  · rw [getLsbD_pext_of_popcount_le _ (Nat.not_lt.mp hlt), decide_eq_false hlt, Bool.and_false]

/-- Settles O40: the empty and the full mask, the round trip and the empty word, one lemma each. -/
theorem referenceFunctionsObeyTheirLaws : Obligations.ReferenceFunctionsObeyTheirLaws := fun a mask =>
  ⟨pdep_zero a, pext_zero a, pdep_fullMask a, pext_fullMask a, pext_pdep a mask,
    fun k _ => select1_of_popcount_le (popcount_zero ▸ Nat.zero_le k)⟩

/-! The chunk decomposition (R109). -/

/-- Chunk `i` of a deposit is the deposit into the mask's chunk `i` of the operand's bits not yet used below it. -/
theorem ofNat_chunkOf_pdep (w : ChunkWidth) (a mask : Word) {i : Nat} (hi : i < w.chunks) :
    BitVec.ofNat 64 (chunkOf w (pdep a mask) i)
      = chunkPdep ((a >>> popcount (mask.setWidth (w.bits * i))).toNat % w.values) (chunkOf w mask i) := by
  refine BitVec.eq_of_getLsbD_eq fun k hk => ?_
  have hle := w.bits_succ_le hi
  rw [getLsbD_chunkOf, chunkPdep, getLsbD_pdep _ _ hk, getLsbD_chunkOf, Bool.and_assoc]
  by_cases hkb : k < w.bits
  · have hmask : ∀ j < k, (BitVec.ofNat 64 (chunkOf w mask i)).getLsbD j = mask.getLsbD (w.bits * i + j) :=
      fun j hj => by rw [getLsbD_chunkOf, decide_eq_true (Nat.lt_trans hj hkb), Bool.true_and]
    have hrank := popcount_setWidth_le (BitVec.ofNat 64 (chunkOf w mask i)) (Nat.le_of_lt hk)
    rw [getLsbD_pdep _ _ (by omega), popcount_setWidth_add (by omega) hmask, getLsbD_ofNat_mod_values,
      decide_eq_true (Nat.lt_of_le_of_lt hrank hkb), Bool.true_and, BitVec.getLsbD_ushiftRight]
  · rw [decide_eq_false hkb, Bool.false_and, Bool.false_and]

theorem chunkOf_pdep (w : ChunkWidth) (a mask : Word) {i : Nat} (hi : i < w.chunks) :
    chunkOf w (pdep a mask) i
      = (chunkPdep ((a >>> popcount (mask.setWidth (w.bits * i))).toNat % w.values) (chunkOf w mask i)).toNat := by
  have hlt : chunkOf w (pdep a mask) i < 2 ^ 64 := Nat.lt_of_lt_of_le (chunkOf_lt w _ i) (by cases w <;> decide)
  rw [← ofNat_chunkOf_pdep w a mask hi, BitVec.toNat_ofNat, Nat.mod_eq_of_lt hlt]

/-- The chunks of an extract up to chunk `n`, each put after those below it. -/
theorem foldl_chunkPext (w : ChunkWidth) (a mask : Word) {n : Nat} (hn : n ≤ w.chunks) :
    (List.range n).foldl (fun r i =>
        r ||| (chunkPext (chunkOf w a i) (chunkOf w mask i) <<< popcount (mask.setWidth (w.bits * i)))) 0
      = pextUpTo a mask (w.bits * n) := by
  induction n with
  | zero => rfl
  | succ n ih =>
    rw [List.range_succ, List.foldl_append, ih (Nat.le_of_lt hn)]
    exact congrArg Prod.fst (pextStep_upTo w a mask hn)

/-- Settles O41: the deposit chunk by chunk, and the loop of the extract one chunk at a time. -/
theorem referenceFunctionsDecomposeByChunks : Obligations.ReferenceFunctionsDecomposeByChunks := fun w a mask =>
  ⟨fun _ hi => chunkOf_pdep w a mask hi, by
    rw [foldl_chunkPext w a mask (Nat.le_refl _), w.bits_mul_chunks, pext_eq_upTo]⟩

/-! The Oracle commands (R105 to R107). -/

/-- Settles O34: each command's meaning is one completion with its reference function on the latches. -/
theorem oracleCommandsReturnTheReferenceFunctions : Obligations.OracleCommandsReturnTheReferenceFunctions :=
  fun _ => ⟨rfl, rfl, rfl⟩

end Sys2Proof.Machine

/-! PROOFS. The table builder (41_table_builder.md R120 to R133): BUILD leaves one TMEM, the image of the tables, which is
also what its MemWrites leave; NOP and TBLRD; and the ERR field every completion leaves (60_exceptions.md R242, R243). -/

namespace Sys2Proof.Machine

/-! BUILD's self-check (R128, R130). -/

/-- Deposits and extracts of chunks are chunks, so the self-check never fires. -/
theorem buildConsistent_eq_true : buildConsistent = true := by
  simp only [buildConsistent, List.all_eq_true, List.mem_range, Bool.and_eq_true, decide_eq_true_eq]
  exact fun _ _ x _ _ hy => ⟨chunkPdep_lt hy x, chunkPext_lt hy x⟩

theorem exec_build (s : State) : exec .build s = .next (completeBuild s tableImage) := by
  rw [exec, execBuild, if_pos buildConsistent_eq_true]

/-! The tables' bytes by value and mask chunk (R121 to R127). -/

theorem TablesHold.tmem_pdepEntry {m : Memory} (h : TablesHold m) (w : ChunkWidth) (o : Orientation) {x y : Nat}
    (hx : x < w.values) (hy : y < w.values) :
    m.read (entryAddr w o (pdepTable w o) x y) = some ((chunkPdep x y).setWidth 8) := by
  obtain ⟨k, hk, haddr, hentry⟩ := pdepTable_entry w o hx hy
  rw [haddr, h _ k hk, hentry]

theorem TablesHold.tmem_pextEntry {m : Memory} (h : TablesHold m) (w : ChunkWidth) (o : Orientation) {x y : Nat}
    (hx : x < w.values) (hy : y < w.values) :
    m.read (entryAddr w o (pextTable w o) x y) = some ((chunkPext x y).setWidth 8) := by
  obtain ⟨k, hk, haddr, hentry⟩ := pextTable_entry w o hx hy
  rw [haddr, h _ k hk, hentry]

theorem TablesHold.tmem_popEntry {m : Memory} (h : TablesHold m) (w : ChunkWidth) {y : Nat} (hy : y < w.values) :
    m.read ((popTable w).base + y) = some (chunkPop y) := by
  rw [h (popTable w) y (popTable_size w ▸ hy)]
  cases w <;> rfl

theorem TablesHold.tmem_lpEntry {m : Memory} (h : TablesHold m) {x y : Nat} (hx : x < 16) (hy : y < 16) :
    m.read (Table.lp.base + 16 * x + y) = some ((chunkPdep x y).setWidth 8) := by
  rw [Nat.add_assoc, h .lp _ (show 16 * x + y < 256 by omega), lp_entry x hy]

theorem TablesHold.tmem_lxEntry {m : Memory} (h : TablesHold m) {x y : Nat} (hx : x < 16) (hy : y < 16) :
    m.read (Table.lx.base + 16 * x + y) = some ((chunkPext x y).setWidth 8) := by
  rw [Nat.add_assoc, h .lx _ (show 16 * x + y < 256 by omega), lx_entry x hy]

/-! The MemWrites of R128. -/

/-- What the loop body writes is what the tables hold there. -/
theorem TablesHold.tmem_pairWrite {m : Memory} (h : TablesHold m) {w : ChunkWidth} {x y : Nat} (hx : x < w.values)
    (hy : y < w.values) {c : Nat × Byte} (hc : c ∈ pairWrites w x y) : m.read c.1 = some c.2 := by
  simp only [pairWrites, List.mem_cons, List.not_mem_nil, or_false] at hc
  rcases hc with rfl | rfl | rfl | rfl
  · exact h.tmem_pdepEntry w .forward hx hy
  · exact h.tmem_pextEntry w .forward hx hy
  · exact h.tmem_pdepEntry w .inverse hx hy
  · exact h.tmem_pextEntry w .inverse hx hy

theorem TablesHold.tmem_widthWrite {m : Memory} (h : TablesHold m) {w : ChunkWidth} {c : Nat × Byte}
    (hc : c ∈ widthWrites w) : m.read c.1 = some c.2 := by
  simp only [widthWrites, List.mem_append, List.mem_flatMap, List.mem_map, List.mem_range] at hc
  rcases hc with ⟨x, hx, y, hy, hc⟩ | ⟨y, hy, rfl⟩
  · exact h.tmem_pairWrite hx hy hc
  · exact h.tmem_popEntry w hy

theorem TablesHold.tmem_laneWrite {m : Memory} (h : TablesHold m) {c : Nat × Byte} (hc : c ∈ laneWrites) :
    m.read c.1 = some c.2 := by
  simp only [laneWrites, List.mem_flatMap, List.mem_range, List.mem_cons, List.not_mem_nil, or_false] at hc
  obtain ⟨x, hx, y, hy, rfl | rfl⟩ := hc
  · exact h.tmem_lpEntry hx hy
  · exact h.tmem_lxEntry hx hy

theorem TablesHold.tmem_buildWrite {m : Memory} (h : TablesHold m) {c : Nat × Byte} (hc : c ∈ buildWrites) :
    m.read c.1 = some c.2 := by
  simp only [buildWrites, List.mem_append] at hc
  rcases hc with (hc | hc) | hc
  · exact h.tmem_widthWrite hc
  · exact h.tmem_widthWrite hc
  · exact h.tmem_laneWrite hc

/-- Writes that each store what `img` holds there leave what `img` holds at every address that agreed before or is
written, in whatever order and however often. -/
theorem Memory.read_foldl_memWrite {img : Memory} {a : Nat} (l : List (Nat × Byte)) (m : Memory)
    (himg : ∀ c ∈ l, img.read c.1 = some c.2) (ha : m.read a = img.read a ∨ ∃ c ∈ l, c.1 = a) :
    (l.foldl (fun m c => memWrite m c.1 1 c.2) m).read a = img.read a := by
  induction l generalizing m with
  | nil => exact ha.resolve_right fun ⟨_, hc, _⟩ => nomatch hc
  | cons d l ih =>
    obtain ⟨hd, hl⟩ := List.forall_mem_cons.mp himg
    refine ih _ hl ?_
    simp only [memWrite_one, Memory.read_write]
    by_cases had : a = d.1
    · rw [if_pos had, had, hd]
      exact .inl rfl
    · rw [if_neg had]
      exact ha.imp_right fun hex => (List.exists_mem_cons_iff ..).mp hex |>.resolve_left fun e => had e.symm

theorem Memory.foldl_memWrite_wf (l : List (Nat × Byte)) {m : Memory} (hm : Memory.wf m) :
    Memory.wf (l.foldl (fun m c => memWrite m c.1 1 c.2) m) := by
  induction l generalizing m with
  | nil => exact hm
  | cons d l ih => exact ih (memWrite_wf d.1 1 d.2 hm)

/-- R128: on a canonical TMEM the MemWrites leave the image; an offset they do not reach is a hole. -/
theorem buildByWrites_eq_tableImage {m : Memory} (hwf : Memory.wf m) (hbacked : OnlyBacked m) :
    buildByWrites m = tableImage := by
  refine Memory.ext_of_wf (Memory.foldl_memWrite_wf _ hwf) tableImage_wf fun a => ?_
  refine Memory.read_foldl_memWrite _ m (fun c hc => tableImage_tablesHold.tmem_buildWrite hc) ?_
  by_cases hwritten : ∃ c ∈ buildWrites, c.1 = a
  · exact .inr hwritten
  · have hhole : tmemHole a = true := tmemHole_of_not_written fun c hc e => hwritten ⟨c, hc, e.symm⟩
    exact .inl ((hbacked.read_hole hhole).trans (onlyBacked_tableImage.read_hole hhole).symm)

/-- Settles O20: BUILD installs the image, and so do its MemWrites. -/
theorem buildLeavesWhatItsMemWritesLeave : Obligations.BuildLeavesWhatItsMemWritesLeave := by
  intro s hwf hbacked
  rw [exec_build, buildByWrites_eq_tableImage hwf hbacked]
  rfl

/-! What BUILD leaves (R121 to R131), and what TBLRD shows of it (R133). -/

/-- The popcount of a chunk is at most the chunk's length (R125). -/
theorem chunk_popcount_le {w : ChunkWidth} {y : Nat} (hy : y < w.values) : popcount (BitVec.ofNat 64 y) ≤ w.bits := by
  rw [chunk_popcount_eq hy]
  exact popcount_setWidth_le _ (Nat.le_trans w.bits_le (by decide))

/-- Settles O19: the image holds the tables, whatever was there before. -/
theorem buildConstructsTheTables : Obligations.BuildConstructsTheTables := by
  intro s
  have h := tableImage_tablesHold
  refine ⟨tableImage, exec_build s, fun x hx y hy => ?_, fun x hx y hy => ?_, fun y hy => ?_, fun y hy => ?_⟩
  · exact ⟨chunkPdep_lt (w := .w16) hy x, chunkPext_lt (w := .w16) hy x,
      h.tmem_pdepEntry .w16 .forward hx hy, h.tmem_pextEntry .w16 .forward hx hy,
      h.tmem_pdepEntry .w16 .inverse hx hy, h.tmem_pextEntry .w16 .inverse hx hy,
      h.tmem_lpEntry hx hy, h.tmem_lxEntry hx hy⟩
  · exact ⟨chunkPdep_lt (w := .w256) hy x, chunkPext_lt (w := .w256) hy x,
      h.tmem_pdepEntry .w256 .forward hx hy, h.tmem_pextEntry .w256 .forward hx hy,
      h.tmem_pdepEntry .w256 .inverse hx hy, h.tmem_pextEntry .w256 .inverse hx hy⟩
  · exact ⟨h.tmem_popEntry .w16 hy, chunk_popcount_le (w := .w16) hy⟩
  · exact ⟨h.tmem_popEntry .w256 hy, chunk_popcount_le (w := .w256) hy⟩

/-- A canonical TMEM that holds the tables and no byte in a hole is the image. -/
theorem TablesHold.eq_tableImage {m : Memory} (h : TablesHold m) (hwf : Memory.wf m) (hbacked : OnlyBacked m) :
    m = tableImage := by
  refine Memory.ext_of_wf hwf tableImage_wf fun a => ?_
  cases hhole : tmemHole a with
  | true => rw [hbacked.read_hole hhole, onlyBacked_tableImage.read_hole hhole]
  | false =>
    obtain ⟨t, o, ho, rfl⟩ := Table.of_backed hhole
    rw [h t o ho, tableImage_read t ho]

/-- Settles O21: the acceptance clears TV only, and the completion installs the image that was there already. -/
theorem repeatedBuildLeavesTheTablesUnchanged : Obligations.RepeatedBuildLeavesTheTablesUnchanged := by
  intro s rest hinv hb htv hs
  have hmem : s.tmem = tableImage := (hinv.tables htv).eq_tableImage hinv.canonical hinv.backed
  refine ⟨⟨_, (commandWriteIsAcceptedOrDropped s _ _ hs).2 hb, rfl, rfl, rfl⟩, ?_⟩
  rw [(issuedCommandRunsOnLatchedOperands s .build rest hb).1 hs, exec_build, ← hmem]
  simp [completeBuild, hb, htv, opcode]

/-- A table's byte is no larger than the word it is cut from. -/
theorem toNat_byte_lt {v : Word} {n : Nat} (h : v.toNat < n) : (v.setWidth 8).toNat < n := by
  rw [BitVec.toNat_setWidth]
  exact Nat.lt_of_le_of_lt (Nat.mod_le _ _) h

/-- Settles O23: entries of equal value and mask chunk hold one deposit, one extract and one count. -/
theorem tablesHaveTheObservableProperties : Obligations.TablesHaveTheObservableProperties := by
  intro s hinv htv
  have h := hinv.tables htv
  refine ⟨fun x hx y hy => ?_, fun x hx y hy => ?_, fun y hy => ?_, fun y hy => ?_⟩
  · have hx' : x < 256 := Nat.lt_trans hx (by decide)
    have hy' : y < 256 := Nat.lt_trans hy (by decide)
    have hp := h.tmem_pdepEntry .w16 .forward hx hy
    have hq := h.tmem_pextEntry .w16 .forward hx hy
    exact ⟨(h.tmem_pdepEntry .w16 .inverse hx hy).trans hp.symm, (h.tmem_pextEntry .w16 .inverse hx hy).trans hq.symm,
      (h.tmem_lpEntry hx hy).trans hp.symm, (h.tmem_lxEntry hx hy).trans hq.symm,
      (h.tmem_pdepEntry .w256 .forward hx' hy').trans hp.symm, (h.tmem_pextEntry .w256 .forward hx' hy').trans hq.symm,
      ⟨_, hp, toNat_byte_lt (chunkPdep_lt (w := .w16) hy x)⟩,
      ⟨_, hq, toNat_byte_lt (chunkPext_lt (w := .w16) hy x)⟩⟩
  · have hp := h.tmem_pdepEntry .w256 .forward hx hy
    have hq := h.tmem_pextEntry .w256 .forward hx hy
    exact ⟨(h.tmem_pdepEntry .w256 .inverse hx hy).trans hp.symm,
      (h.tmem_pextEntry .w256 .inverse hx hy).trans hq.symm,
      ⟨_, hp, toNat_byte_lt (chunkPdep_lt (w := .w256) hy x)⟩,
      ⟨_, hq, toNat_byte_lt (chunkPext_lt (w := .w256) hy x)⟩⟩
  · have hc := h.tmem_popEntry .w16 hy
    exact ⟨hc.trans (h.tmem_popEntry .w256 (Nat.lt_trans hy (by decide))).symm,
      ⟨_, hc, chunkPop_toNat y ▸ chunk_popcount_le (w := .w16) hy⟩⟩
  · exact ⟨_, h.tmem_popEntry .w256 hy, chunkPop_toNat y ▸ chunk_popcount_le (w := .w256) hy⟩

/-! ERR after a completion (R242, R243). -/

/-- The first error condition of a legal command that holds, in the order of R242. -/
def commandErr (i : Instr) (s : State) : ErrCode :=
  if readsTables i = true ∧ s.tv = false then .notBuilt
  else if isSelect i = true ∧ (operandRank s < 0 ∨ 63 < operandRank s) then .kRange
  else if i = .tblrd ∧ tmemHole (operandOffset s) = true then .badIndex
  else .ok

/-- The shape of every completion: BUSY ends, and ERR is the first condition that holds. -/
theorem busy_err_of_exec_next {i : Instr} {s t : State} (h : exec i s = .next t) :
    t.busy = false ∧ t.err = commandErr i s := by
  rw [commandErr]
  generalize ho : exec i s = o at h
  cases (ho ▸ exec_completed i s : Completed i s o) with
  | notBuilt hi htv => cases h; exact ⟨rfl, (if_pos ⟨hi, htv⟩).symm⟩
  | kRange hi hk =>
    cases h
    simp [readsTables_eq_false_of_isSelect hi, hi, hk]
  | badIndex hi htv hh =>
    cases h
    simp [hi, isSelect, htv, hh]
  | nop hi | build hi => cases h; subst hi; exact ⟨rfl, rfl⟩
  | buildInconsistent _ hc => exact nomatch buildConsistent_eq_true.symm.trans hc
  | result _ _ htv hk hh =>
    cases h
    have hread : ¬(readsTables i = true ∧ s.tv = false) := fun ⟨hi, h⟩ => nomatch (htv hi).symm.trans h
    have hrank : ¬(isSelect i = true ∧ (operandRank s < 0 ∨ 63 < operandRank s)) := fun ⟨hi, h⟩ => by
      have := hk hi
      omega
    have hindex : ¬(i = .tblrd ∧ tmemHole (operandOffset s) = true) := fun ⟨hi, h⟩ => nomatch (hh hi).symm.trans h
    rw [if_neg hread, if_neg hrank, if_neg hindex]
    exact ⟨rfl, rfl⟩
  | fault => cases h

/-- The step that is a completion runs it on the state with the moves still to come (R243). -/
theorem step_of_completesNext {s : State} (h : completesNext s = true) :
    ∃ rest, step s = completion { s with inputs := rest } := by
  have hb := busy_of_completesNext h
  match hs : s.inputs with
  | [] => exact ⟨s.inputs, (step_nil hs).trans (engineTurn_busy hb)⟩
  | .engine :: rest => exact ⟨rest, (step_cons hs).trans (engineTurn_busy (s := { s with inputs := rest }) hb)⟩
  | .host _ :: _ | .reset :: _ => simp [completesNext, hs] at h

/-- Settles O45: an illegal word first, then the conditions of a legal command in their order. -/
theorem completionErrIsTheFirstInPriority : Obligations.CompletionErrIsTheFirstInPriority := by
  intro s t hc h
  obtain ⟨rest, hstep⟩ := step_of_completesNext hc
  rw [hstep] at h
  cases hd : decodeLatched s.lop s.lrsv with
  | error r =>
    rw [completion_rejected (s := { s with inputs := rest }) hd] at h
    cases h
    exact ⟨rfl, rfl⟩
  | ok i =>
    rw [completion_decoded (s := { s with inputs := rest }) hd] at h
    simp only [← isSelect_iff]
    exact busy_err_of_exec_next (s := { s with inputs := rest }) h

/-- Settles O53: a command goes on where TV is truthful, and what it goes on to has BUSY = 0. -/
theorem everyCommandCompletesInSoundStates : Obligations.EveryCommandCompletesInSoundStates := by
  intro i s htables
  obtain ⟨t, ht⟩ := exec_next htables i
  exact ⟨t, ht, (busy_err_of_exec_next ht).1⟩

/-! NOP and TBLRD (R120, R132). -/

/-- Settles O18: NOP is the shared completion with ERR = OK and no result. -/
theorem nopCompletesAndClearsErr : Obligations.NopCompletesAndClearsErr := ⟨rfl, fun _ => rfl⟩

/-- Settles O22: the guard, then the test of the offset, then the byte. -/
theorem tblrdReadsOneByteOfTmem : Obligations.TblrdReadsOneByteOfTmem := by
  refine ⟨rfl, fun s => ⟨fun htv => whenBuilt_notBuilt htv _, fun htv hoff => ?_, fun htv hoff b hread => ?_⟩⟩
  · exact exec_tblrd_hole htv ((tmemHole_iff _).mpr (by rw [operandOffset]; omega))
  · have hbacked : tmemHole (operandOffset s) = false :=
      Bool.eq_false_iff.mpr fun hh => hoff (by have := (tmemHole_iff _).mp hh; rw [operandOffset] at this; omega)
    rw [exec_tblrd_backed hbacked, whenBuilt_built htv, readByte_ok hbacked hread]
    rfl

end Sys2Proof.Machine

/-! PROOFS. What a completion reads of TMEM: no engine's answer depends on a byte outside the tables its command reads
(42_table_pdep.md R153 to R162, 43_table_pext.md R173 to R182, 44_vector_shuffle.md R193, R194). -/

namespace Sys2Proof.Machine

/-- Settles O31: over the tables every walk answers the Oracle's value, so any two walks answer the same. -/
theorem orientationAndPopSourceDoNotMatter : Obligations.OrientationAndPopSourceDoNotMatter := by
  intro m w o o' p p' a mask h
  exact ⟨(h.tablePdep_eq w o p a mask).trans (h.tablePdep_eq w o' p' a mask).symm,
    (h.tablePext_eq w o p a mask).trans (h.tablePext_eq w o' p' a mask).symm⟩

/-! Memories that agree on some tables. -/

/-- The two memories read the same at every byte of these tables. -/
def AgreeOn (ts : List Table) (m m' : Memory) : Prop :=
  ∀ t ∈ ts, ∀ o < t.size, m.read (t.base + o) = m'.read (t.base + o)

/-- Agreement on a list of tables is agreement on each of them. -/
theorem AgreeOn.single {ts : List Table} {m m' : Memory} (h : AgreeOn ts m m') {t : Table} (ht : t ∈ ts) :
    AgreeOn [t] m m' := fun _ hu => List.mem_singleton.mp hu ▸ h t ht

theorem AgreeOn.tail {t : Table} {ts : List Table} {m m' : Memory} (h : AgreeOn (t :: ts) m m') : AgreeOn ts m m' :=
  fun u hu => h u (List.mem_cons_of_mem t hu)

/-! The reads of the engines. -/

theorem AgreeOn.readByte_eq {t : Table} {m m' : Memory} (h : AgreeOn [t] m m') {o : Nat} (ho : o < t.size) :
    readByte m (t.base + o) = readByte m' (t.base + o) := by
  rw [readByte, readByte, h t List.mem_cons_self o ho]

theorem AgreeOn.memReadNat_eq {t : Table} {m m' : Memory} (h : AgreeOn [t] m m') (n o : Nat) (hn : o + n ≤ t.size) :
    memReadNat m (t.base + o) n = memReadNat m' (t.base + o) n := by
  induction n generalizing o with
  | zero => rfl
  | succ n ih =>
    rw [memReadNat, memReadNat, h.readByte_eq (o := o) (by omega), Nat.add_assoc, ih (o + 1) (by omega)]

/-- A row of a lane table (R191). -/
theorem AgreeOn.laneVector_eq {t : Table} {m m' : Memory} (h : AgreeOn [t] m m') (ht : t.size = 256) {x : Nat}
    (hx : x < 16) : laneVector m t x = laneVector m' t x := by
  rw [laneVector, laneVector, memRead, memRead, h.memReadNat_eq 16 (16 * x) (by omega)]

/-- The table a popcount source reads (R150, R170): none for the circuit. -/
def popTablesRead (w : ChunkWidth) : PopSource → List Table
  | .circuit => []
  | .table => [popTable w]

theorem AgreeOn.chunkPopcount_eq {w : ChunkWidth} {p : PopSource} {m m' : Memory}
    (h : AgreeOn (popTablesRead w p) m m') {b : Nat} (hb : b < w.values) :
    chunkPopcount w p m b = chunkPopcount w p m' b := by
  cases p with
  | circuit => rfl
  | table => rw [chunkPopcount, chunkPopcount, AgreeOn.readByte_eq h (popTable_size w ▸ hb)]

/-! The engines. -/

/-- Loops whose turns agree on the list's elements agree. -/
theorem foldlM_congr {α β : Type} {f g : β → α → Except Fault β} (l : List α) (b : β)
    (h : ∀ b, ∀ x ∈ l, f b x = g b x) : l.foldlM f b = l.foldlM g b := by
  induction l generalizing b with
  | nil => rfl
  | cons x l ih =>
    rw [List.foldlM_cons, List.foldlM_cons, h b x List.mem_cons_self]
    exact congrArg _ (funext fun c => ih c fun b y hy => h b y (List.mem_cons_of_mem x hy))

theorem AgreeOn.tablePdep_eq {w : ChunkWidth} {o : Orientation} {p : PopSource} {m m' : Memory}
    (h : AgreeOn (pdepTable w o :: popTablesRead w p) m m') (a mask : Word) :
    tablePdep w o p m a mask = tablePdep w o p m' a mask := by
  have turn : ∀ st i, pdepChunk w o p m mask st i = pdepChunk w o p m' mask st i := by
    intro st i
    have hb : chunkOf w mask i < w.values := chunkOf_lt w mask i
    obtain ⟨k, hk, haddr, -⟩ := pdepTable_entry w o (Nat.mod_lt st.2.toNat w.values_pos) hb
    rw [pdepChunk, pdepChunk, haddr, (h.single List.mem_cons_self).readByte_eq hk, h.tail.chunkPopcount_eq hb]
  rw [tablePdep, tablePdep, foldlM_congr _ _ fun st i _ => turn st i]

theorem AgreeOn.tablePext_eq {w : ChunkWidth} {o : Orientation} {p : PopSource} {m m' : Memory}
    (h : AgreeOn (pextTable w o :: popTablesRead w p) m m') (a mask : Word) :
    tablePext w o p m a mask = tablePext w o p m' a mask := by
  have turn : ∀ st i, pextChunk w o p m a mask st i = pextChunk w o p m' a mask st i := by
    intro st i
    have hb : chunkOf w mask i < w.values := chunkOf_lt w mask i
    obtain ⟨k, hk, haddr, -⟩ := pextTable_entry w o (chunkOf_lt w a i) hb
    rw [pextChunk, pextChunk, haddr, (h.single List.mem_cons_self).readByte_eq hk, h.tail.chunkPopcount_eq hb]
  rw [tablePext, tablePext, foldlM_congr _ _ fun st i _ => turn st i]

theorem AgreeOn.pdepVs_eq {m m' : Memory} (h : AgreeOn [.lp, .p16] m m') (a mask : Word) :
    pdepVs m a mask = pdepVs m' a mask := by
  have row : ∀ s : Word, laneVector m .lp (s.toNat % 16) = laneVector m' .lp (s.toNat % 16) := fun s =>
    (h.single List.mem_cons_self).laneVector_eq rfl (Nat.mod_lt _ (by decide))
  have turn : ∀ st, ∀ i ∈ List.range 8, pdepVsLane m mask st i = pdepVsLane m' mask st i := by
    intro st i hi
    have hi : i < 16 := Nat.lt_trans (List.mem_range.mp hi) (by decide)
    simp only [pdepVsLane, row, h.tail.readByte_eq (loNibbles_lt mask hi), h.tail.readByte_eq (hiNibbles_lt mask hi)]
  rw [pdepVs, pdepVs, foldlM_congr _ _ turn]

theorem AgreeOn.pextVs_eq {m m' : Memory} (h : AgreeOn [.lx, .p16] m m') (a mask : Word) :
    pextVs m a mask = pextVs m' a mask := by
  have row : ∀ q, laneVector m .lx (nibbleAt a q).toNat = laneVector m' .lx (nibbleAt a q).toNat := fun q =>
    (h.single List.mem_cons_self).laneVector_eq rfl (nibbleAt_lt a q)
  have turn : ∀ st, ∀ i ∈ List.range 8, pextVsLane m a mask st i = pextVsLane m' a mask st i := by
    intro st i hi
    have hi : i < 16 := Nat.lt_trans (List.mem_range.mp hi) (by decide)
    simp only [pextVsLane, row, h.tail.readByte_eq (loNibbles_lt mask hi), h.tail.readByte_eq (hiNibbles_lt mask hi)]
  rw [pextVs, pextVs, foldlM_congr _ _ turn]

/-! The commands. -/

/-- The tables of the eight PDEP commands are those of their walk (R153 to R160). -/
theorem tablesRead_tablePdep {i : Instr} (hi : i ∈ tablePdepInstrs) :
    ∃ w o p, (∀ s, exec i s = tablePdepCommand w o p s) ∧ tablesRead i = pdepTable w o :: popTablesRead w p := by
  simp only [tablePdepInstrs, List.mem_cons, List.not_mem_nil, or_false] at hi
  rcases hi with rfl | rfl | rfl | rfl | rfl | rfl | rfl | rfl <;> exact ⟨_, _, _, fun _ => rfl, rfl⟩

/-- The tables of the eight PEXT commands are those of their walk (R173 to R180). -/
theorem tablesRead_tablePext {i : Instr} (hi : i ∈ tablePextInstrs) :
    ∃ w o p, (∀ s, exec i s = tablePextCommand w o p s) ∧ tablesRead i = pextTable w o :: popTablesRead w p := by
  simp only [tablePextInstrs, List.mem_cons, List.not_mem_nil, or_false] at hi
  rcases hi with rfl | rfl | rfl | rfl | rfl | rfl | rfl | rfl <;> exact ⟨_, _, _, fun _ => rfl, rfl⟩

/-- The operand check of select1 looks at neither TV nor TMEM (R220). -/
theorem withRank_complete (s : State) (f : Word → Nat → Word) :
    ∃ e res, ∀ (b : Bool) (m : Memory),
      withRank { s with tv := b, tmem := m } f = .next (complete { s with tv := b, tmem := m } e res) := by
  rcases withRank_cases s f with ⟨hk, -⟩ | ⟨h0, h63, -⟩
  · exact ⟨.kRange, none, fun b m => withRank_outOfRange (s := { s with tv := b, tmem := m }) hk f⟩
  · exact ⟨.ok, some (f s.la (operandRank s).toNat),
      fun b m => withRank_inRange (s := { s with tv := b, tmem := m }) h0 h63 f⟩

/-- A command that reads no table completes in the same way whatever TV and TMEM are (R244). -/
theorem exec_of_readsTables_false {i : Instr} (hi : i ≠ .build) (hr : readsTables i = false) (s : State) :
    ∃ e res, ∀ (b : Bool) (m : Memory),
      exec i { s with tv := b, tmem := m } = .next (complete { s with tv := b, tmem := m } e res) := by
  cases i with
  | build => exact absurd rfl hi
  | nop => exact ⟨.ok, none, fun _ _ => rfl⟩
  | pextCf => exact ⟨.ok, some (pextClosed s.la s.lb), fun _ _ => rfl⟩
  | pdepRef => exact ⟨.ok, some (pdep s.la s.lb), fun _ _ => rfl⟩
  | pextRef => exact ⟨.ok, some (pext s.la s.lb), fun _ _ => rfl⟩
  | popcntRef => exact ⟨.ok, some (BitVec.ofNat 64 (popcount s.la)), fun _ _ => rfl⟩
  | sel1Naive | sel1Clear | sel1Bsearch | sel1Pdep => exact withRank_complete s _
  | _ => cases hr

/-- Where no table is read, TMEM does not matter: either the command reads none, or it stops at the guard. -/
theorem exec_of_not_reading {i : Instr} (hi : i ≠ .build) {s : State} (h : ¬(readsTables i = true ∧ s.tv = true)) :
    ∃ e res, ∀ m : Memory, exec i { s with tmem := m } = .next (complete { s with tmem := m } e res) := by
  by_cases hr : readsTables i = true
  · exact exec_of_tv_false hi (Bool.eq_false_iff.mpr fun htv => h ⟨hr, htv⟩)
  · obtain ⟨e, res, hexec⟩ := exec_of_readsTables_false hi (Bool.eq_false_iff.mpr hr) s
    exact ⟨e, res, hexec s.tv⟩

/-- A built engine's answer completes in the same way whatever TMEM is left holding. -/
theorem whenBuilt_finish_tmem {s t : State} {m : Memory} {r r' : Except Fault Word} (hr : r' = r) (htv : s.tv = true)
    (h : whenBuilt s (finish s r) = .next t) :
    whenBuilt { s with tmem := m } (finish { s with tmem := m } r') = .next { t with tmem := m } := by
  subst hr
  rw [whenBuilt_built htv] at h
  obtain ⟨v, rfl, rfl⟩ := finish_next_iff.mp h
  exact whenBuilt_built (s := { s with tmem := m }) htv _

/-- TBLRD reads no byte outside the tables: an offset outside them is a hole (R132). -/
theorem exec_tblrd_tmem {s t : State} {m : Memory} (h : AgreeOn Table.all m s.tmem) (htv : s.tv = true)
    (hexec : exec .tblrd s = .next t) : exec .tblrd { s with tmem := m } = .next { t with tmem := m } := by
  cases hh : tmemHole (operandOffset s) with
  | true =>
    cases (exec_tblrd_hole htv hh).symm.trans hexec
    exact exec_tblrd_hole (s := { s with tmem := m }) htv hh
  | false =>
    obtain ⟨u, o, ho, haddr⟩ := Table.of_backed hh
    have hread : readByte m (operandOffset s) = readByte s.tmem (operandOffset s) :=
      haddr ▸ (h.single u.mem_all).readByte_eq ho
    rw [exec_tblrd_backed hh] at hexec
    rw [exec_tblrd_backed (s := { s with tmem := m }) hh]
    exact whenBuilt_finish_tmem (congrArg _ hread) htv hexec

/-- A table-reading command while TV = 1, by its engine. -/
theorem exec_reading_tmem {i : Instr} {s t : State} {m : Memory} (hi : readsTables i = true) (htv : s.tv = true)
    (h : AgreeOn (tablesRead i) m s.tmem) (hexec : exec i s = .next t) :
    exec i { s with tmem := m } = .next { t with tmem := m } := by
  rcases readsTables_cases hi with rfl | hi | hi | rfl | rfl
  · exact exec_tblrd_tmem h htv hexec
  · obtain ⟨w, o, p, hwalk, htables⟩ := tablesRead_tablePdep hi
    rw [htables] at h
    rw [hwalk] at hexec ⊢
    exact whenBuilt_finish_tmem (h.tablePdep_eq s.la s.lb) htv hexec
  · obtain ⟨w, o, p, hwalk, htables⟩ := tablesRead_tablePext hi
    rw [htables] at h
    rw [hwalk] at hexec ⊢
    exact whenBuilt_finish_tmem (h.tablePext_eq s.la s.lb) htv hexec
  · exact whenBuilt_finish_tmem (AgreeOn.pdepVs_eq h s.la s.lb) htv hexec
  · exact whenBuilt_finish_tmem (AgreeOn.pextVs_eq h s.la s.lb) htv hexec

/-- Settles O32: a command that reads tables sees the same bytes in them, and any other completion reads no TMEM. -/
theorem commandsReadOnlyTheirTables : Obligations.CommandsReadOnlyTheirTables := by
  intro i s t m hi h hexec
  by_cases hreads : readsTables i = true ∧ s.tv = true
  · exact exec_reading_tmem hreads.1 hreads.2 h hexec
  · obtain ⟨e, res, hcomplete⟩ := exec_of_not_reading hi hreads
    cases (hcomplete s.tmem).symm.trans hexec
    exact hcomplete m

end Sys2Proof.Machine

/-! PROOFS. The obligations of the vector-shuffle engine (44_vector_shuffle.md R190 to R195): its two commands answer
the Oracle's results over the tables, and its byte shuffle and mask nibble vectors are as stated byte by byte. -/

namespace Sys2Proof.Machine

/-- Settles O29: over the tables the eight lanes of an engine are the sixteen turns of the 16-entry walk, which answers
the Oracle's value, and the guard answers NOT_BUILT before any read. -/
theorem vectorShuffleCommandsMatchTheOracle : Obligations.VectorShuffleCommandsMatchTheOracle := fun _ =>
  ⟨fun htv h => ⟨exec_pdepVs htv h, exec_pextVs htv h⟩,
    fun htv => ⟨whenBuilt_notBuilt htv _, whenBuilt_notBuilt htv _⟩⟩

/-- The index of R190 is the low nibble of its byte. -/
theorem toNat_lowNibble (b : Byte) : (b.extractLsb' 0 4).toNat = b.toNat % 16 := by
  rw [BitVec.extractLsb'_toNat, Nat.shiftRight_zero]

/-- Settles O33: each of the three vectors is made byte by byte, and a byte of it reads back as it was made. -/
theorem shuffleAndNibbleVectorsAreAsStated : Obligations.ShuffleAndNibbleVectorsAreAsStated := by
  refine ⟨fun v x j hj => ?shuffled, fun mask i hi => ⟨laneByte_laneOfBytes _ hi, laneByte_laneOfBytes _ hi⟩⟩
  case shuffled => rw [shuffle, laneByte_laneOfBytes _ hj, toNat_lowNibble]

end Sys2Proof.Machine

/-! PROOFS. The obligation of the closed-form extract (45_closed_form.md R210, R211). -/

namespace Sys2Proof.Machine

/-- Settles O30: after the six compress rounds every selected bit stands at its rank (`pextClosed_eq`, by the invariant
`RoundInv` of the rounds), and the command completes with that word without looking at TV or TMEM. -/
theorem closedFormExtracts : Obligations.ClosedFormExtracts := exec_pextCf

end Sys2Proof.Machine

/-! PROOFS. The select1 engine (46_select1.md R220 to R225). The rank of a position is the count of set bits below it, and
`select1` finds the set bit of rank `k`. The scan counts ranks as it goes; clearing the lowest bit `k` times leaves the set
bits of rank `k` or more; the binary search keeps `k` between the ranks of its ends; the deposit of bit `k` is the set bit
of rank `k` alone. -/

namespace Sys2Proof.Machine

/-! Ranks. -/

/-- Above a set bit the ranks are greater. -/
theorem popcount_setWidth_lt {x : Word} {i j : Nat} (hi : x.getLsbD i = true) (hij : i < j) :
    popcount (x.setWidth i) < popcount (x.setWidth j) := by
  rw [popcount_setWidth_eq_count, popcount_setWidth_eq_count]
  exact Nat.count_strict_mono hi hij

theorem popcount_setWidth_lt_popcount {x : Word} {i : Nat} (hi : i < 64) (hx : x.getLsbD i = true) :
    popcount (x.setWidth i) < popcount x := by
  rw [popcount_eq_setWidth x]
  exact popcount_setWidth_lt hx hi

/-- R103 without its test: where no rank is `k` the search finds nothing. -/
theorem select1_eq_find (x : Word) (k : Nat) : select1 x k
    = positionOrSentinel ((List.range 64).find? fun i => x.getLsbD i && popcount (x.setWidth i) == k) := by
  rw [select1]
  split
  case isFalse => rfl
  case isTrue hle =>
    have hnone : ∀ i < 64, (!(x.getLsbD i && popcount (x.setWidth i) == k)) = true := fun i hi => by
      cases hx : x.getLsbD i
      · rfl
      · have := popcount_setWidth_lt_popcount hi hx
        simp [show popcount (x.setWidth i) ≠ k by omega]
    rw [List.find?_range_eq_none.mpr hnone, positionOrSentinel]

/-! SEL1.NAIVE (R221). -/

/-- The scan's counter is the rank of the position it has come to. -/
theorem scanFrom_range' (x : Word) (k : Nat) {n len : Nat} (h : n + len ≤ 64) :
    scanFrom x k (List.range' n len) (popcount (x.setWidth n))
      = (List.range' n len).find? fun i => x.getLsbD i && popcount (x.setWidth i) == k := by
  induction len generalizing n with
  | zero => rfl
  | succ len ih =>
    have hnext := popcount_setWidth_succ x (show n < 64 by omega)
    have ih := ih (n := n + 1) (by omega)
    rw [List.range'_succ, scanFrom]
    cases hx : x.getLsbD n with
    | false =>
      simp only [hx, Bool.toNat_false, Nat.add_zero] at hnext
      rw [if_neg Bool.false_ne_true, List.find?_cons_of_neg (by simp [hx]), ← ih, hnext]
    | true =>
      simp only [hx, Bool.toNat_true] at hnext
      rw [if_pos rfl, ← hnext, ih]
      by_cases hk : popcount (x.setWidth n) = k
      · rw [if_pos hk, List.find?_cons_of_pos (by simp [hx, hk])]
      · rw [if_neg hk, List.find?_cons_of_neg (by simp [hx, hk])]

theorem selectNaive_eq (x : Word) (k : Nat) : selectNaive x k = select1 x k := by
  have hscan := scanFrom_range' x k (n := 0) (len := 64) (Nat.le_refl _)
  rw [popcount_setWidth_zero, ← List.range_eq_range'] at hscan
  rw [selectNaive, hscan, select1_eq_find]

/-! SEL1.CLEAR (R222). -/

/-- Subtracting 1 borrows through the bits below the lowest set bit: there is a carry into the bits above it. -/
theorem carry_allOnes_eq (y : Word) {i : Nat} (hi : i ≤ 64) :
    BitVec.carry i y (BitVec.allOnes 64) false = decide (0 < popcount (y.setWidth i)) := by
  induction i with
  | zero => simp
  | succ i ih =>
    rw [BitVec.carry_succ, ih (by omega), popcount_setWidth_succ y hi, BitVec.getLsbD_allOnes,
      decide_eq_true (show i < 64 from hi)]
    cases y.getLsbD i <;> simp [Bool.atLeastTwo]

/-- One turn of R222 clears the set bit of rank 0. -/
theorem getLsbD_and_sub_one (y : Word) {i : Nat} (hi : i < 64) :
    (y &&& (y - 1)).getLsbD i = (y.getLsbD i && decide (0 < popcount (y.setWidth i))) := by
  have hsub : y - 1 = y + BitVec.allOnes 64 := BitVec.sub_eq_add_neg y 1
  rw [BitVec.getLsbD_and, hsub, BitVec.getLsbD_add hi, BitVec.getLsbD_allOnes, decide_eq_true hi,
    carry_allOnes_eq y (Nat.le_of_lt hi)]
  cases y.getLsbD i <;> simp

/-- `y` is `x` without its `k` lowest set bits. -/
def KeepsFromRank (x : Word) (k : Nat) (y : Word) : Prop :=
  ∀ i < 64, y.getLsbD i = (x.getLsbD i && decide (k ≤ popcount (x.setWidth i)))

theorem KeepsFromRank.popcount_setWidth {x y : Word} {k : Nat} (h : KeepsFromRank x k y) {n : Nat} (hn : n ≤ 64) :
    popcount (y.setWidth n) = popcount (x.setWidth n) - k := by
  induction n with
  | zero => simp
  | succ n ih =>
    rw [popcount_setWidth_succ y hn, popcount_setWidth_succ x hn, ih (by omega), h n hn]
    cases x.getLsbD n with
    | false => rfl
    | true => by_cases hk : k ≤ popcount (x.setWidth n) <;> simp [hk] <;> omega

theorem KeepsFromRank.next {x y : Word} {k : Nat} (h : KeepsFromRank x k y) :
    KeepsFromRank x (k + 1) (y &&& (y - 1)) := fun i hi => by
  rw [getLsbD_and_sub_one y hi, h.popcount_setWidth (Nat.le_of_lt hi), h i hi, Bool.and_assoc, ← Bool.decide_and]
  congr 2
  rw [eq_iff_iff]
  omega

theorem keepsFromRank_clearLowest (x : Word) (k : Nat) : KeepsFromRank x k (clearLowest x k) := by
  induction k with
  | zero => exact fun i _ => by simp [clearLowest]
  | succ k ih =>
    rw [clearLowest, List.range_succ, List.foldl_append]
    exact ih.next

theorem selectClear_eq (x : Word) (k : Nat) : selectClear x k = select1 x k := by
  have hkeeps := keepsFromRank_clearLowest x k
  have hcleared : ∀ {j}, j < 64 → (x.getLsbD j = true → popcount (x.setWidth j) < k) →
      (clearLowest x k).getLsbD j = false := fun {j} hj hlow => by
    rw [hkeeps j hj]
    cases hx : x.getLsbD j
    · rfl
    · rw [decide_eq_false (Nat.not_le.mpr (hlow hx)), Bool.and_false]
  rw [selectClear]
  by_cases hk : k < popcount x
  · obtain ⟨i, hi, hx, hrank⟩ := (exists_rank_iff x k).mpr hk
    have hfound : bsf (clearLowest x k) = some i := by
      refine (bsf_eq_some_iff _ i).mpr ⟨?_, hi, fun j hj => ?_⟩
      · rw [hkeeps i hi, hx, decide_eq_true (Nat.le_of_eq hrank.symm), Bool.true_and]
      · exact hcleared (Nat.lt_trans hj hi) fun hxj => hrank ▸ popcount_setWidth_lt hxj hj
    rw [hfound, select1_of_rank hi hx hrank, positionOrSentinel]
  · have hempty : clearLowest x k = 0 := BitVec.eq_of_getLsbD_eq fun j hj =>
      (hcleared hj fun hxj =>
        Nat.lt_of_lt_of_le (popcount_setWidth_lt_popcount hj hxj) (Nat.not_lt.mp hk)).trans (getLsbD_zeroWord j).symm
    rw [(bsf_eq_none_iff _).mpr hempty, select1_of_popcount_le (Nat.not_lt.mp hk), positionOrSentinel]

/-! SEL1.BSEARCH (R223). -/

/-- The mask of R223 is `LOW(c)` of R108. -/
theorem shiftLeft_sub_one_eq_lowMask {c : Nat} (hc : c < 64) : ((1 : Word) <<< c) - 1 = lowMask c := by
  have hshift : (1 : Word) <<< c = BitVec.ofNat 64 (2 ^ c) :=
    BitVec.eq_of_toNat_eq ((BitVec.toNat_twoPow 64 c).trans (BitVec.toNat_ofNat _ _).symm)
  rw [lowMask, if_pos hc, hshift]
  exact BitVec.ofNat_sub_ofNat_of_le _ _ (by decide) Nat.one_le_two_pow

/-- The masked count of R223 is the rank of `c`. -/
theorem popcount_and_lowMask (x : Word) {c : Nat} (hc : c ≤ 64) :
    popcount (x &&& lowMask c) = popcount (x.setWidth c) := by
  have habove : ∀ j, c ≤ j → (x &&& lowMask c).getLsbD j = false := fun j hj => by
    by_cases hj64 : j < 64
    · rw [BitVec.getLsbD_and, getLsbD_lowMask c hj64, decide_eq_false (Nat.not_lt.mpr hj), Bool.and_false]
    · exact BitVec.getLsbD_of_ge _ _ (Nat.not_lt.mp hj64)
  have hbelow : (x &&& lowMask c).setWidth c = x.setWidth c := BitVec.eq_of_getLsbD_eq fun j hj => by
    rw [BitVec.getLsbD_setWidth, BitVec.getLsbD_setWidth, BitVec.getLsbD_and, getLsbD_lowMask c (by omega),
      decide_eq_true hj, Bool.and_true]
  rw [popcount_eq_setWidth, popcount_setWidth_of_zero_above habove hc (Nat.le_refl _), hbelow]

/-- The invariant of R223 with `n` steps to go: `k` is between the ranks of the ends, which are `2 ^ n` apart. -/
structure Brackets (x : Word) (k n : Nat) (b : Nat × Nat) : Prop where
  low : popcount (x.setWidth b.1) ≤ k
  high : k < popcount (x.setWidth b.2)
  width : b.2 = b.1 + 2 ^ n
  bound : b.2 ≤ 64

theorem brackets_start {x : Word} {k : Nat} (hk : k < popcount x) : Brackets x k 6 (0, 64) where
  low := Nat.zero_le k
  high := popcount_eq_setWidth x ▸ hk
  width := rfl
  bound := Nat.le_refl 64

theorem Brackets.step {x : Word} {k n : Nat} {b : Nat × Nat} (h : Brackets x k (n + 1) b) (i : Nat) :
    Brackets x k n (searchStep x k b i) := by
  obtain ⟨lo, hi⟩ := b
  obtain ⟨hlow, hhigh, hwidth, hbound⟩ := h
  dsimp only at hlow hhigh hwidth hbound
  rw [Nat.pow_succ] at hwidth
  have hpos := Nat.two_pow_pos n
  have hmid : (lo + hi) / 2 = lo + 2 ^ n := by omega
  rw [searchStep]
  simp only [hmid, shiftLeft_sub_one_eq_lowMask (show lo + 2 ^ n < 64 by omega),
    popcount_and_lowMask x (show lo + 2 ^ n ≤ 64 by omega)]
  split
  case isTrue hle => exact ⟨hle, hhigh, by dsimp only; omega, hbound⟩
  case isFalse hgt => exact ⟨hlow, Nat.not_le.mp hgt, rfl, by dsimp only; omega⟩

theorem Brackets.foldl {x : Word} {k : Nat} (steps : List Nat) {b : Nat × Nat} (h : Brackets x k steps.length b) :
    Brackets x k 0 (steps.foldl (searchStep x k) b) := by
  induction steps generalizing b with
  | nil => exact h
  | cons i steps ih => exact ih (h.step i)

/-- Neighbouring ends leave one position: a set bit of rank `k`. -/
theorem Brackets.select1_eq {x : Word} {k : Nat} {b : Nat × Nat} (h : Brackets x k 0 b) :
    select1 x k = BitVec.ofNat 64 b.1 := by
  obtain ⟨hlow, hhigh, hwidth, hbound⟩ := h
  have hlt : b.1 < 64 := by omega
  rw [hwidth, Nat.pow_zero, popcount_setWidth_succ x hlt] at hhigh
  cases hx : x.getLsbD b.1 with
  | false => rw [hx, Bool.toNat_false] at hhigh; omega
  | true =>
    rw [hx, Bool.toNat_true] at hhigh
    exact select1_of_rank hlt hx (by omega)

theorem selectSearch_eq (x : Word) (k : Nat) : selectSearch x k = select1 x k := by
  rw [selectSearch]
  split
  case isTrue hle => exact (select1_of_popcount_le hle).symm
  case isFalse hlt => exact (Brackets.foldl (List.range 6) (brackets_start (Nat.not_le.mp hlt))).select1_eq.symm

/-! SEL1.PDEP (R224). -/

/-- The deposit of bit `k` is the set bit of rank `k`, and nothing where there is none. -/
theorem getLsbD_pdep_bit (x : Word) {k i : Nat} (hk : k < 64) (hi : i < 64) :
    (pdep ((1 : Word) <<< k) x).getLsbD i = (x.getLsbD i && popcount (x.setWidth i) == k) := by
  have hbit (j : Nat) : ((1 : Word) <<< k).getLsbD j = (j == k) := by
    rw [show (1 : Word) <<< k = BitVec.twoPow 64 k from rfl, BitVec.getLsbD_twoPow, decide_eq_true hk, Bool.true_and]
    exact decide_eq_decide.mpr eq_comm
  rw [getLsbD_pdep _ x hi, hbit]

theorem selectPdep_eq (x : Word) {k : Nat} (hk : k < 64) : selectPdep x k = select1 x k := by
  rw [selectPdep, select1_eq_find, bsf, List.find?_congr fun i hi => getLsbD_pdep_bit x hk (List.mem_range.mp hi)]

/-! The commands (R220, R225). -/

/-- Each select1 command is the operand check before a strategy that agrees with `select1` on the ranks it lets through. -/
theorem exec_select {i : Instr} (hi : i ∈ [Instr.sel1Naive, .sel1Clear, .sel1Bsearch, .sel1Pdep]) :
    ∃ strategy, (∀ s, exec i s = withRank s strategy) ∧ ∀ x, ∀ k < 64, strategy x k = select1 x k := by
  simp only [List.mem_cons, List.not_mem_nil, or_false] at hi
  rcases hi with rfl | rfl | rfl | rfl
  · exact ⟨selectNaive, fun _ => rfl, fun x k _ => selectNaive_eq x k⟩
  · exact ⟨selectClear, fun _ => rfl, fun x k _ => selectClear_eq x k⟩
  · exact ⟨selectSearch, fun _ => rfl, fun x k _ => selectSearch_eq x k⟩
  · exact ⟨selectPdep, fun _ => rfl, fun x k hk => selectPdep_eq x hk⟩

/-- Settles O42: a rank in range passes the check, and the four strategies are all `select1` there. -/
theorem select1CommandsAgree : Obligations.Select1CommandsAgree := by
  intro i hi s h0 h63
  obtain ⟨strategy, hexec, hstrategy⟩ := exec_select hi
  have hrank : (operandRank s).toNat < 64 := (Int.toNat_lt h0).mpr (Int.lt_add_one_of_le h63)
  rw [hexec, withRank_inRange h0 h63, hstrategy _ _ hrank]
  rfl

/-- Settles O43: a rank out of range stops every select1 command at its check. -/
theorem rankOutOfRangeCompletesWithKRange : Obligations.RankOutOfRangeCompletesWithKRange := by
  intro i hi s hrange
  obtain ⟨strategy, hexec, -⟩ := exec_select hi
  rw [hexec, withRank_outOfRange hrange]
  rfl

end Sys2Proof.Machine

/-! PROOFS. Exceptions and the Engine's turn (60_exceptions.md R241 to R244, R255): what a completion with an error
leaves unchanged, which commands need the tables, and that a command in flight completes. -/

namespace Sys2Proof.Machine

/-! The two shapes of a completion, BUILD's self-check settled (R130, R243). -/

theorem exec_next_cases {i : Instr} {s t : State} (h : exec i s = .next t) :
    t = completeBuild s tableImage ∨ ∃ e res, t = complete s e res := by
  by_cases hi : i = .build
  · subst hi
    cases (exec_build s).symm.trans h
    exact .inl rfl
  · obtain ⟨e, res, ht, -⟩ := exec_next_complete hi h
    exact .inr ⟨e, res, ht⟩

/-- Settles O15: the idle turn, taken when no move is left or as the next move. -/
theorem idleEngineKeepsAllState : Obligations.IdleEngineKeepsAllState := fun s hb =>
  ⟨fun hs => (step_nil hs).trans (engineTurn_idle hb),
    fun rest hs => (step_cons hs).trans (engineTurn_idle (s := { s with inputs := rest }) hb)⟩

/-! The tables a command needs (R244). -/

theorem exec_notBuilt {i : Instr} (hi : readsTables i = true) {s : State} (htv : s.tv = false) :
    exec i s = .next (completeError s .notBuilt) := by
  cases i with
  | nop | build | pextCf | pdepRef | pextRef | popcntRef | sel1Naive | sel1Clear | sel1Bsearch | sel1Pdep => cases hi
  | _ => exact whenBuilt_notBuilt htv _

/-- Settles O44: the guard stops every table-reading command at TV = 0; every other command but BUILD ends in a completion
that depends on neither TV nor TMEM and keeps both, and BUILD overwrites both. -/
theorem onlyTableReadingCommandsNeedTheTables : Obligations.OnlyTableReadingCommandsNeedTheTables := by
  refine ⟨fun i hi s htv => ?_, fun i hi s t b m h => ?_, fun s t b m h => ?_⟩
  · have hreads : readsTables i = true := by revert i; decide
    exact exec_notBuilt hreads htv
  · have hother : i ≠ .build ∧ readsTables i = false := by clear h; revert i; decide
    obtain ⟨e, res, hexec⟩ := exec_of_readsTables_false hother.1 hother.2 s
    cases (hexec s.tv s.tmem).symm.trans h
    exact hexec b m
  · exact (exec_build { s with tv := b, tmem := m }).trans ((exec_build s).symm.trans h)

/-! Errors (R241). -/

theorem complete_of_ne_ok (s : State) {e : ErrCode} (he : e ≠ .ok) (res : Option Word) :
    complete s e res = { s with err := e, busy := false } := by
  rw [complete, completedResult_of_ne_ok s.result he]

/-- Settles O46: BUILD always succeeds, so a completion with ERR ≠ 0 is the shared one, which then keeps RESULT; a CMD
write while BUSY = 1 is the drop of R31. -/
theorem errorsHaveNoSideEffect : Obligations.ErrorsHaveNoSideEffect := by
  refine ⟨fun i s t h herr => ?_, fun s t ⟨hb, v, rest, hs⟩ h => ?_⟩
  · rcases exec_next_cases h with rfl | ⟨e, res, rfl⟩
    · exact absurd rfl herr
    · exact complete_of_ne_ok s herr res
  · cases ((commandWriteIsAcceptedOrDropped s v rest hs).1 hb).symm.trans h
    rfl

/-! A command in flight (R243, R292). -/

/-- After the Engine's turn nothing is in flight, and the moves still to come are the same. -/
theorem busy_inputs_of_engineTurn {s t : State} (h : engineTurn s = .next t) :
    t.busy = false ∧ t.inputs = s.inputs := by
  rcases engineTurn_cases s with ⟨hb, e⟩ | ⟨-, i, -, e⟩ | ⟨-, r, -, e⟩ <;> rw [e] at h
  · cases h
    exact ⟨hb, rfl⟩
  · rcases exec_next_cases h with rfl | ⟨e, res, rfl⟩ <;> exact ⟨rfl, rfl⟩
  · cases h
    exact ⟨rfl, rfl⟩

/-- The Host ends no command in flight, since a CMD write is then dropped (R31), and leaves the moves to come. -/
theorem busy_inputs_of_hostStep {s t : State} {a : HostAccess} (hb : s.busy = true) (h : hostStep s a = .next t) :
    t.busy = true ∧ t.inputs = s.inputs := by
  rcases hostStep_cases s a with ⟨off, -, -, e⟩ | ⟨off, v, -, -, e⟩ | e <;> rw [e] at h <;> cases h
  · exact ⟨hb, rfl⟩
  · rcases windowWrite_cases s off v with ⟨-, e⟩ | ⟨-, e⟩ | ⟨-, -, e⟩ | ⟨-, hidle, e⟩ | e <;> rw [e]
    · exact ⟨hb, rfl⟩
    · exact ⟨hb, rfl⟩
    · exact ⟨hb, rfl⟩
    · exact nomatch hb.symm.trans hidle
    · exact ⟨hb, rfl⟩

/-- Settles O57, by induction on the accesses: each is answered and leaves a sound state with the command still in flight,
and after the last one the Engine's turn completes it. -/
theorem commandInFlightCompletes : Obligations.CommandInFlightCompletes := by
  intro s hs hinv hb hwf hinputs
  induction hs generalizing s with
  | nil =>
    obtain ⟨t, ht⟩ := engineTurn_next hinv.tables
    obtain ⟨hidle, hrest⟩ := busy_inputs_of_engineTurn ht
    exact ⟨t, (run_one s).trans ((step_nil hinputs).trans ht), hidle, hrest.trans hinputs⟩
  | cons a hs ih =>
    obtain ⟨ha, hwf⟩ := List.forall_mem_cons.mp hwf
    obtain ⟨u, hu⟩ := hostStep_wellFormed { s with inputs := hs.map .host } ha
    have hstep : step s = .next u := (step_cons hinputs).trans hu
    obtain ⟨hbusy, hrest⟩ := busy_inputs_of_hostStep (s := { s with inputs := hs.map .host }) hb hu
    rw [List.length_cons, run_succ_next _ hstep]
    exact ih u (everyStepKeepsTheInvariant s u hinv hstep) hbusy hwf hrest

end Sys2Proof.Machine

/-! PROOFS. Reset and hazards (70_reset_and_hazards.md R270 to R272, R287): no Engine's turn after a reset finds a command
to complete, and operand writes change nothing that a completion reads. -/

namespace Sys2Proof.Machine

/-! The reset input (R270 to R272). -/

/-- The Engine's turns use up their moves and change nothing else while no command is in flight (R255). -/
theorem run_idleEngine (n : Nat) {s : State} {rest : List Input} (hb : s.busy = false)
    (hs : s.inputs = List.replicate n .engine ++ rest) : run n s = .next { s with inputs := rest } := by
  induction n generalizing s with
  | zero =>
    rw [List.replicate_zero, List.nil_append] at hs
    rw [run_zero, ← hs]
  | succ n ih =>
    rw [List.replicate_succ, List.cons_append] at hs
    rw [run_succ_next n ((idleEngineKeepsAllState s hb).2 _ hs)]
    exact ih hb rfl

/-- Settles O6: the reset state is idle, so no later turn of the Engine completes the abandoned command. -/
theorem resetInputAbandonsTheCommand : Obligations.ResetInputAbandonsTheCommand := by
  intro s n rest hs
  have hreset : step s = .next (resetInput { s with inputs := List.replicate n .engine ++ rest }) := step_cons hs
  have hstatus : statusWord State.reset = 0 := by decide
  refine ⟨_, hreset, rfl, rfl, rfl, hstatus, fun _ => rfl, ?_⟩
  rw [run_succ_next n hreset]
  exact run_idleEngine n rfl rfl

/-! Operand writes while a command is in flight (R287). -/

/-- Operand writes leave the last values written in OPA and OPB, are answered, and change nothing else. -/
theorem run_operandWrites {s : State} {ws : List (Bool × Word)} {rest : List Input}
    (hs : s.inputs = ws.map operandWrite ++ rest) : run ws.length s = .next { s with
      opa := (lastOperands (s.opa, s.opb) ws).1
      opb := (lastOperands (s.opa, s.opb) ws).2
      inputs := rest
      reply := if ws.isEmpty then s.reply else .written } := by
  induction ws generalizing s with
  | nil =>
    rw [List.map_nil, List.nil_append] at hs
    rw [← hs]
    rfl
  | cons w ws ih =>
    rw [List.map_cons, List.cons_append] at hs
    rw [List.length_cons, run_succ_next _ (step_operandWrite hs), ih rfl]
    obtain ⟨toA, v⟩ := w
    cases toA <;> simp

/-- Settles O56: the completion after the writes starts from a state that differs in OPA, OPB and `reply` only, and
`exec` passes these through. -/
theorem operandWritesDoNotReachTheCommandInFlight : Obligations.OperandWritesDoNotReachTheCommandInFlight := by
  intro s i ws rest hb hd hs
  have hrun : run (ws.length + 1) s = exec i { s with
      opa := (lastOperands (s.opa, s.opb) ws).1
      opb := (lastOperands (s.opa, s.opb) ws).2
      inputs := rest
      reply := if ws.isEmpty then s.reply else .written } := by
    rw [run_add_next 1 (run_operandWrites hs), run_one]
    exact step_engine rfl hb hd
  rw [hrun]
  exact exec_hostFields i { s with inputs := rest } _ _ _

end Sys2Proof.Machine
